-- ==== Sys2Proof/Word.lean ====
section
/-!
DEFINITION. The words of the machine (spec/00_scope.md R7): every value is unsigned.
-/

namespace Sys2Proof

/-- A byte: a general register, a memory cell, a byte immediate `kk`. -/
abbrev Byte := BitVec 8

/-- A word: the registers `I` and `PC`, a return address, an opcode. -/
abbrev Word := BitVec 16

/-- A 12-bit address immediate `nnn`. -/
abbrev Addr12 := BitVec 12

/-- The number of a general register, V0 to VF (spec/10_state.md R20). -/
abbrev Reg := Fin 16

/-- The number of a key of the keypad (spec/10_state.md R28). -/
abbrev Key := Fin 16

end Sys2Proof
end

