-- ==== Sys2Proof/Syntax.lean ====
section
/-!
DEFINITION. The instructions: one constructor per row of spec/opcode_table.json (spec/30_encoding.md R74).
-/

namespace Sys2Proof

/-- The 34 instructions. `x`, `y` are register numbers, `kk` a byte immediate, `nnn` a 12-bit address, `n` a count
of sprite rows (spec/30_encoding.md R71, R73). The low nibble of classes 5 and 9 is no operand: it is not examined
(R79; log 15). -/
inductive Instr where
  /-- `00E0` `CLS`. -/
  | cls
  /-- `00EE` `RET`. -/
  | ret
  /-- `1nnn` `JP nnn`. -/
  | jp (nnn : Addr12)
  /-- `2nnn` `CALL nnn`. -/
  | call (nnn : Addr12)
  /-- `3xkk` `SE Vx, kk`. -/
  | seImm (x : Reg) (kk : Byte)
  /-- `4xkk` `SNE Vx, kk`. -/
  | sneImm (x : Reg) (kk : Byte)
  /-- `5xy_` `SE Vx, Vy`. -/
  | seReg (x y : Reg)
  /-- `6xkk` `LD Vx, kk`. -/
  | ldImm (x : Reg) (kk : Byte)
  /-- `7xkk` `ADD Vx, kk`. -/
  | addImm (x : Reg) (kk : Byte)
  /-- `8xy0` `LD Vx, Vy`. -/
  | ldReg (x y : Reg)
  /-- `8xy1` `OR Vx, Vy`. -/
  | or (x y : Reg)
  /-- `8xy2` `AND Vx, Vy`. -/
  | and (x y : Reg)
  /-- `8xy3` `XOR Vx, Vy`. -/
  | xor (x y : Reg)
  /-- `8xy4` `ADD Vx, Vy`. -/
  | addReg (x y : Reg)
  /-- `8xy5` `SUB Vx, Vy`. -/
  | sub (x y : Reg)
  /-- `8xy6` `SHR Vx, Vy`. -/
  | shr (x y : Reg)
  /-- `8xy7` `SUBN Vx, Vy`. -/
  | subn (x y : Reg)
  /-- `8xyE` `SHL Vx, Vy`. -/
  | shl (x y : Reg)
  /-- `9xy_` `SNE Vx, Vy`. -/
  | sneReg (x y : Reg)
  /-- `Annn` `LD I, nnn`. -/
  | ldI (nnn : Addr12)
  /-- `Bnnn` `JP V0, nnn`. -/
  | jpV0 (nnn : Addr12)
  /-- `Cxkk` `RND Vx, kk`. -/
  | rnd (x : Reg) (kk : Byte)
  /-- `Dxyn` `DRW Vx, Vy, n`. -/
  | drw (x y : Reg) (n : Nat)
  /-- `Ex9E` `SKP Vx`. -/
  | skp (x : Reg)
  /-- `ExA1` `SKNP Vx`. -/
  | sknp (x : Reg)
  /-- `Fx07` `LD Vx, DT`. -/
  | ldVxDt (x : Reg)
  /-- `Fx0A` `LD Vx, K`. -/
  | ldVxK (x : Reg)
  /-- `Fx15` `LD DT, Vx`. -/
  | ldDtVx (x : Reg)
  /-- `Fx18` `LD ST, Vx`. -/
  | ldStVx (x : Reg)
  /-- `Fx1E` `ADD I, Vx`. -/
  | addI (x : Reg)
  /-- `Fx29` `LD F, Vx`. -/
  | ldF (x : Reg)
  /-- `Fx33` `LD B, Vx`. -/
  | ldB (x : Reg)
  /-- `Fx55` `LD [I], Vx`. -/
  | storeRegs (x : Reg)
  /-- `Fx65` `LD Vx, [I]`. -/
  | loadRegs (x : Reg)
  deriving DecidableEq, Repr

end Sys2Proof
end

