-- ==== Sys2Proof/Decode.lean ====
section
/-!
DEFINITION. The decoder and the encoder (spec/30_encoding.md). A word's fields are read and placed as numbers, as
spec/00_scope.md R7 defines a slice.
-/

namespace Sys2Proof

/-- Why a decoder answers no instruction. -/
inductive DecodeError where
  /-- The opcode matches no row of the opcode map (spec/30_encoding.md R80). -/
  | invalidOpcode (op : Word)
  /-- Fewer than the two bytes every instruction has (spec/30_encoding.md R81). -/
  | tooShort
  deriving DecidableEq, Repr

/-- `v[hi:lo]`: bits `hi` down to `lo`, both included, as a number (spec/00_scope.md R7). -/
def slice (v hi lo : Nat) : Nat := v / 2 ^ lo % 2 ^ (hi + 1 - lo)

/-- The field `class` of an opcode (spec/30_encoding.md R71). -/
def fieldClass (op : Word) : Nat := slice op.toNat 15 12

/-- The field `x` of an opcode (spec/30_encoding.md R71). -/
def fieldX (op : Word) : Reg := Fin.ofNat 16 (slice op.toNat 11 8)

/-- The field `y` of an opcode (spec/30_encoding.md R71). -/
def fieldY (op : Word) : Reg := Fin.ofNat 16 (slice op.toNat 7 4)

/-- The field `n` of an opcode (spec/30_encoding.md R71). -/
def fieldN (op : Word) : Nat := slice op.toNat 3 0

/-- The field `kk` of an opcode (spec/30_encoding.md R71). -/
def fieldKk (op : Word) : Byte := BitVec.ofNat 8 (slice op.toNat 7 0)

/-- The field `nnn` of an opcode (spec/30_encoding.md R71). -/
def fieldNnn (op : Word) : Addr12 := BitVec.ofNat 12 (slice op.toNat 11 0)

/-- Class 0x0, dispatched on the full opcode (spec/30_encoding.md R75). -/
def decodeClass0 (op : Word) : Option Instr :=
  if op = 0x00E0 then some .cls else if op = 0x00EE then some .ret else none

/-- Class 0x8, dispatched on the low nibble (spec/30_encoding.md R76). -/
def decodeClass8 (op : Word) : Option Instr :=
  match fieldN op with
  | 0x0 => some (.ldReg (fieldX op) (fieldY op))
  | 0x1 => some (.or (fieldX op) (fieldY op))
  | 0x2 => some (.and (fieldX op) (fieldY op))
  | 0x3 => some (.xor (fieldX op) (fieldY op))
  | 0x4 => some (.addReg (fieldX op) (fieldY op))
  | 0x5 => some (.sub (fieldX op) (fieldY op))
  | 0x6 => some (.shr (fieldX op) (fieldY op))
  | 0x7 => some (.subn (fieldX op) (fieldY op))
  | 0xE => some (.shl (fieldX op) (fieldY op))
  | _ => none

/-- Class 0xE, dispatched on the low byte (spec/30_encoding.md R77). -/
def decodeClassE (op : Word) : Option Instr :=
  match slice op.toNat 7 0 with
  | 0x9E => some (.skp (fieldX op))
  | 0xA1 => some (.sknp (fieldX op))
  | _ => none

/-- Class 0xF, dispatched on the low byte (spec/30_encoding.md R78). -/
def decodeClassF (op : Word) : Option Instr :=
  match slice op.toNat 7 0 with
  | 0x07 => some (.ldVxDt (fieldX op))
  | 0x0A => some (.ldVxK (fieldX op))
  | 0x15 => some (.ldDtVx (fieldX op))
  | 0x18 => some (.ldStVx (fieldX op))
  | 0x1E => some (.addI (fieldX op))
  | 0x29 => some (.ldF (fieldX op))
  | 0x33 => some (.ldB (fieldX op))
  | 0x55 => some (.storeRegs (fieldX op))
  | 0x65 => some (.loadRegs (fieldX op))
  | _ => none

/-- Primary dispatch on the class (spec/30_encoding.md R74, R79). `none`: the word is no instruction. -/
def decodeOpcode (op : Word) : Option Instr :=
  match fieldClass op with
  | 0x0 => decodeClass0 op
  | 0x1 => some (.jp (fieldNnn op))
  | 0x2 => some (.call (fieldNnn op))
  | 0x3 => some (.seImm (fieldX op) (fieldKk op))
  | 0x4 => some (.sneImm (fieldX op) (fieldKk op))
  | 0x5 => some (.seReg (fieldX op) (fieldY op))
  | 0x6 => some (.ldImm (fieldX op) (fieldKk op))
  | 0x7 => some (.addImm (fieldX op) (fieldKk op))
  | 0x8 => decodeClass8 op
  | 0x9 => some (.sneReg (fieldX op) (fieldY op))
  | 0xA => some (.ldI (fieldNnn op))
  | 0xB => some (.jpV0 (fieldNnn op))
  | 0xC => some (.rnd (fieldX op) (fieldKk op))
  | 0xD => some (.drw (fieldX op) (fieldY op) (fieldN op))
  | 0xE => decodeClassE op
  | 0xF => decodeClassF op
  | _ => none

/-- Two bytes make an opcode, the one at the lower address the high half (spec/20_memory.md R54). -/
def joinBytes (high low : Byte) : Word := BitVec.ofNat 16 (high.toNat * 256 + low.toNat)

/-- The byte of an opcode that lies at the lower address (spec/20_memory.md R55). -/
def highByte (op : Word) : Byte := BitVec.ofNat 8 (slice op.toNat 15 8)

/-- The byte of an opcode that lies at the higher address (spec/20_memory.md R55). -/
def lowByte (op : Word) : Byte := BitVec.ofNat 8 (slice op.toNat 7 0)

/-- The decoder over bytes in address order: the instruction and the bytes after it, or the reason there is none.
It always consumes two bytes (spec/30_encoding.md R81). -/
def decode : List Byte → Except DecodeError (Instr × List Byte)
  | high :: low :: rest =>
    match decodeOpcode (joinBytes high low) with
    | some ins => .ok (ins, rest)
    | none => .error (.invalidOpcode (joinBytes high low))
  | _ => .error .tooShort

/-- What the decoder reads from an instruction whose first `nbits` bits are `w`, every other bit zero: its one word
is laid out high byte first and decoded. -/
def decodeTableWord (nbits w : Nat) : Option Instr :=
  let op : Word := BitVec.ofNat 16 (w % 2 ^ nbits)
  match decode [highByte op, lowByte op] with
  | .ok (ins, _) => some ins
  | .error _ => none

/-- Format NNN (spec/30_encoding.md R72): a class and an address. -/
def encodeNnn (cls : Nat) (nnn : Addr12) : Word := BitVec.ofNat 16 (cls * 4096 + nnn.toNat)

/-- Format XKK (spec/30_encoding.md R72): a class, a register and a byte. -/
def encodeXkk (cls : Nat) (x : Reg) (kk : Byte) : Word := BitVec.ofNat 16 (cls * 4096 + x.val * 256 + kk.toNat)

/-- Formats XY and XYN (spec/30_encoding.md R72): a class, two registers and a nibble. -/
def encodeXyn (cls : Nat) (x y : Reg) (n : Nat) : Word :=
  BitVec.ofNat 16 (cls * 4096 + x.val * 256 + y.val * 16 + n)

/-- Format X (spec/30_encoding.md R72): a class, a register and a low byte that names the operation. -/
def encodeX (cls : Nat) (x : Reg) (sub : Nat) : Word := BitVec.ofNat 16 (cls * 4096 + x.val * 256 + sub)

/-- The opcode of an instruction (spec/30_encoding.md R74); the unexamined nibble of classes 5 and 9 is written 0
(R79). -/
def encodeOpcode : Instr → Word
  | .cls => 0x00E0
  | .ret => 0x00EE
  | .jp nnn => encodeNnn 0x1 nnn
  | .call nnn => encodeNnn 0x2 nnn
  | .seImm x kk => encodeXkk 0x3 x kk
  | .sneImm x kk => encodeXkk 0x4 x kk
  | .seReg x y => encodeXyn 0x5 x y 0x0
  | .ldImm x kk => encodeXkk 0x6 x kk
  | .addImm x kk => encodeXkk 0x7 x kk
  | .ldReg x y => encodeXyn 0x8 x y 0x0
  | .or x y => encodeXyn 0x8 x y 0x1
  | .and x y => encodeXyn 0x8 x y 0x2
  | .xor x y => encodeXyn 0x8 x y 0x3
  | .addReg x y => encodeXyn 0x8 x y 0x4
  | .sub x y => encodeXyn 0x8 x y 0x5
  | .shr x y => encodeXyn 0x8 x y 0x6
  | .subn x y => encodeXyn 0x8 x y 0x7
  | .shl x y => encodeXyn 0x8 x y 0xE
  | .sneReg x y => encodeXyn 0x9 x y 0x0
  | .ldI nnn => encodeNnn 0xA nnn
  | .jpV0 nnn => encodeNnn 0xB nnn
  | .rnd x kk => encodeXkk 0xC x kk
  | .drw x y n => encodeXyn 0xD x y n
  | .skp x => encodeX 0xE x 0x9E
  | .sknp x => encodeX 0xE x 0xA1
  | .ldVxDt x => encodeX 0xF x 0x07
  | .ldVxK x => encodeX 0xF x 0x0A
  | .ldDtVx x => encodeX 0xF x 0x15
  | .ldStVx x => encodeX 0xF x 0x18
  | .addI x => encodeX 0xF x 0x1E
  | .ldF x => encodeX 0xF x 0x29
  | .ldB x => encodeX 0xF x 0x33
  | .storeRegs x => encodeX 0xF x 0x55
  | .loadRegs x => encodeX 0xF x 0x65

/-- The bytes of an instruction in address order (spec/20_memory.md R55). -/
def encode (ins : Instr) : List Byte := [highByte (encodeOpcode ins), lowByte (encodeOpcode ins)]

/-- A word with the nibble that classes 5 and 9 do not examine set to zero (spec/30_encoding.md R79). -/
def canonicalOpcode (op : Word) : Word :=
  if fieldClass op = 0x5 ∨ fieldClass op = 0x9 then BitVec.ofNat 16 (op.toNat / 16 * 16) else op

/-- The column "mask" of the opcode map (spec/30_encoding.md R74). -/
def Instr.tableMask : Instr → Word
  | .cls => 0xFFFF
  | .ret => 0xFFFF
  | .jp _ => 0xF000
  | .call _ => 0xF000
  | .seImm _ _ => 0xF000
  | .sneImm _ _ => 0xF000
  | .seReg _ _ => 0xF000
  | .ldImm _ _ => 0xF000
  | .addImm _ _ => 0xF000
  | .ldReg _ _ => 0xF00F
  | .or _ _ => 0xF00F
  | .and _ _ => 0xF00F
  | .xor _ _ => 0xF00F
  | .addReg _ _ => 0xF00F
  | .sub _ _ => 0xF00F
  | .shr _ _ => 0xF00F
  | .subn _ _ => 0xF00F
  | .shl _ _ => 0xF00F
  | .sneReg _ _ => 0xF000
  | .ldI _ => 0xF000
  | .jpV0 _ => 0xF000
  | .rnd _ _ => 0xF000
  | .drw _ _ _ => 0xF000
  | .skp _ => 0xF0FF
  | .sknp _ => 0xF0FF
  | .ldVxDt _ => 0xF0FF
  | .ldVxK _ => 0xF0FF
  | .ldDtVx _ => 0xF0FF
  | .ldStVx _ => 0xF0FF
  | .addI _ => 0xF0FF
  | .ldF _ => 0xF0FF
  | .ldB _ => 0xF0FF
  | .storeRegs _ => 0xF0FF
  | .loadRegs _ => 0xF0FF

/-- The column "match" of the opcode map (spec/30_encoding.md R74). -/
def Instr.tableMatch : Instr → Word
  | .cls => 0x00E0
  | .ret => 0x00EE
  | .jp _ => 0x1000
  | .call _ => 0x2000
  | .seImm _ _ => 0x3000
  | .sneImm _ _ => 0x4000
  | .seReg _ _ => 0x5000
  | .ldImm _ _ => 0x6000
  | .addImm _ _ => 0x7000
  | .ldReg _ _ => 0x8000
  | .or _ _ => 0x8001
  | .and _ _ => 0x8002
  | .xor _ _ => 0x8003
  | .addReg _ _ => 0x8004
  | .sub _ _ => 0x8005
  | .shr _ _ => 0x8006
  | .subn _ _ => 0x8007
  | .shl _ _ => 0x800E
  | .sneReg _ _ => 0x9000
  | .ldI _ => 0xA000
  | .jpV0 _ => 0xB000
  | .rnd _ _ => 0xC000
  | .drw _ _ _ => 0xD000
  | .skp _ => 0xE09E
  | .sknp _ => 0xE0A1
  | .ldVxDt _ => 0xF007
  | .ldVxK _ => 0xF00A
  | .ldDtVx _ => 0xF015
  | .ldStVx _ => 0xF018
  | .addI _ => 0xF01E
  | .ldF _ => 0xF029
  | .ldB _ => 0xF033
  | .storeRegs _ => 0xF055
  | .loadRegs _ => 0xF065

end Sys2Proof
end

