-- ==== Sys2Proof/Config.lean ====
section
/-!
DEFINITION. The configuration (spec/00_scope.md R5) and the free values.

The spec calls the configuration a parameter of the step relation, fixed before `Reset` and changed by no event.
The step here takes no parameter, so `Machine.State` carries it in a field that no rule writes (log 3).
A constant declared `opaque` has no body: no proof can learn which value it has.
-/

namespace Sys2Proof

/-- The parameters of spec/00_scope.md R5 that are not fixed. -/
structure Config where
  /-- `QUIRK_SHIFT_VY`: `SHR` and `SHL` shift `Vy`, not `Vx` (spec/40_alu.md R114). -/
  quirkShiftVy : Bool
  /-- `QUIRK_INC_I`: a completed block transfer leaves `I` advanced (spec/42_index_memory.md R154, R155). -/
  quirkIncI : Bool
  /-- `QUIRK_LOGIC_VF0`: `OR`, `AND`, `XOR` clear VF afterwards (spec/40_alu.md R114). -/
  quirkLogicVf0 : Bool
  /-- `STACK_DEPTH`: a number of entries, or `none` for the spec's `unbounded` (spec/10_state.md R24). -/
  stackDepth : Option Nat
  /-- `DISPLAY_W`. -/
  displayW : Nat
  /-- `DISPLAY_H`. -/
  displayH : Nat
  /-- `TIMER_PERIOD`: clock units in one timer tick (spec/44_timers.md R190). -/
  timerPeriod : Nat
  /-- `INSTR_RATE_HZ`: a tunable of the host's scheduler, which no rule reads (spec/70_reset_and_hazards.md R280). -/
  instrRateHz : Nat
  /-- `DISPLAY_RATE_RATIO`: a tunable of the host's scheduler, which no rule reads (spec/70_reset_and_hazards.md R280). -/
  displayRateRatio : Nat
  /-- `FONT`: the glyph bytes loaded from address 0 (spec/20_memory.md R52). -/
  font : List Byte
  deriving DecidableEq, Repr

/-- `MEM_SIZE`, fixed (spec/00_scope.md R5). -/
def Config.memSize : Nat := 4096

/-- `PROG_BASE`, fixed (spec/00_scope.md R5). -/
def Config.progBase : Nat := 0x200

/-- `FONT_BASE`, fixed (spec/00_scope.md R5); a glyph is `glyphBytes` long (spec/20_memory.md R52). -/
def Config.fontBase : Nat := 0x000

/-- The bytes of one glyph (spec/20_memory.md R52). -/
def Config.glyphBytes : Nat := 5

/-- The bytes of the font area 0x000 to 0x04F (spec/20_memory.md R51). -/
def Config.fontBytes : Nat := 80

/-- The longest ROM the loader accepts (spec/70_reset_and_hazards.md R271). -/
def Config.maxRom : Nat := 3584

/-- What the spec demands of a configuration (spec/00_scope.md R5, R6; 80 font bytes, spec/20_memory.md R52). -/
abbrev Config.wf (c : Config) : Prop :=
  1 ≤ c.displayW ∧ 1 ≤ c.displayH ∧ 1 ≤ c.timerPeriod ∧ c.font.length = Config.fontBytes

/-- The conventional glyphs 0 to 7. PRESUMED (log 5): the spec's own default, marked there as general knowledge. -/
def Config.fontLow : List Byte :=
  [0xF0, 0x90, 0x90, 0x90, 0xF0,
   0x20, 0x60, 0x20, 0x20, 0x70,
   0xF0, 0x10, 0xF0, 0x80, 0xF0,
   0xF0, 0x10, 0xF0, 0x10, 0xF0,
   0x90, 0x90, 0xF0, 0x10, 0x10,
   0xF0, 0x80, 0xF0, 0x10, 0xF0,
   0xF0, 0x80, 0xF0, 0x90, 0xF0,
   0xF0, 0x10, 0x20, 0x40, 0x40]

/-- The conventional glyphs 8 to F. PRESUMED (log 5). -/
def Config.fontHigh : List Byte :=
  [0xF0, 0x90, 0xF0, 0x90, 0xF0,
   0xF0, 0x90, 0xF0, 0x10, 0xF0,
   0xF0, 0x90, 0xF0, 0x90, 0x90,
   0xE0, 0x90, 0xE0, 0x90, 0xE0,
   0xF0, 0x80, 0x80, 0x80, 0xF0,
   0xE0, 0x90, 0x90, 0x90, 0xE0,
   0xF0, 0x80, 0xF0, 0x80, 0xF0,
   0xF0, 0x80, 0xF0, 0x80, 0x80]

/-- The 80 conventional font bytes (spec/20_memory.md R52). -/
def Config.conventionalFont : List Byte := Config.fontLow ++ Config.fontHigh

/-- OPEN in the spec (spec/92_eei_decisions.md D3): no value is chosen (log 3). -/
opaque Config.openShiftVy : Bool

/-- OPEN in the spec (D3): no value is chosen (log 3). -/
opaque Config.openIncI : Bool

/-- OPEN in the spec (D3): no value is chosen (log 3). -/
opaque Config.openLogicVf0 : Bool

/-- The timer period less one, so that the period is positive: the spec fixes no clock unit (D2; log 3). -/
opaque Config.openPeriodLessOne : Nat

/-- `INSTR_RATE_HZ`: the spec names no exact number ("about 500"; log 3). -/
opaque Config.openInstrRate : Nat

/-- `DISPLAY_RATE_RATIO`: the spec names no fixed number ("e.g. every 8th executed instruction"; log 3). -/
opaque Config.openDisplayRatio : Nat

/-- The configuration of the machine at `State.reset`: the spec's defaults where it gives one (log 4, 5), an
opaque constant where it leaves the parameter open (log 3). -/
def Config.initial : Config where
  quirkShiftVy := Config.openShiftVy
  quirkIncI := Config.openIncI
  quirkLogicVf0 := Config.openLogicVf0
  stackDepth := some 16
  displayW := 64
  displayH := 32
  timerPeriod := Config.openPeriodLessOne + 1
  instrRateHz := Config.openInstrRate
  displayRateRatio := Config.openDisplayRatio
  font := Config.conventionalFont

/-- FREE VALUE (log 2): the random byte of the `n`-th draw that no event of the environment supplies
(spec/40_alu.md R111: "any value 0..255"). -/
opaque Config.randomByte : Nat → Byte

/-- FREE VALUE (log 2): how far the clock has advanced at the `n`-th reading that no event of the environment
supplies (spec/44_timers.md R190: readings never decrease). -/
opaque Config.clockAdvance : Nat → Nat

end Sys2Proof
end

