-- ==== Sys2Proof/Machine/State.lean ====
section
/-!
DEFINITION. The state of the machine as plain data (spec/10_state.md), the reasons a step can stop, and the state
after reset.
-/

namespace Sys2Proof.Machine

/-- The fault kinds of the hardware with what each records (spec/60_exceptions.md R240). -/
inductive FaultRecord where
  /-- The fetched word is no instruction; the raw opcode (R241). -/
  | invalidOpcode (op : Word)
  /-- `PC` at a fetch or a data address is outside its range; the address, an unreduced natural number (R242). -/
  | addressBounds (addr : Nat)
  /-- `RET` with an empty stack; the `PC` of the `RET` (R243). -/
  | stackUnderflow (pc : Word)
  /-- `CALL` with a full stack; the `PC` of the `CALL` (R244). -/
  | stackOverflow (pc : Word)
  /-- `LD F` with a register above 0x0F; the register's value (R245). -/
  | invalidDigit (value : Byte)
  deriving DecidableEq, Repr

/-- A countdown timer with its companion: the value, and the clock reading it was last decremented at
(spec/10_state.md R25). -/
structure Timer where
  value : Byte
  last : Option Nat
  deriving DecidableEq, Repr

/-- A rectangle of the display that was drawn on (spec/10_state.md R27). -/
structure Rect where
  x : Nat
  y : Nat
  w : Nat
  h : Nat
  deriving DecidableEq, Repr

/-- The display buffer and its dirty tracking (spec/10_state.md R26, R27). -/
structure Display where
  /-- The cells, row by row: cell `(x, y)` has index `y * W + x`. -/
  fb : List Bool
  /-- One bit for each row, the top row first. -/
  dirtyRows : List Bool
  /-- The rectangles drawn since the last `Present`, oldest first. -/
  dirtyRects : List Rect
  /-- `CLS` ran since the last `Present`. -/
  clearPending : Bool
  deriving DecidableEq, Repr

/-- The blocking key wait (spec/10_state.md R29). -/
inductive Wait where
  | idle
  | awaitingPress
  | awaitingRelease (k : Key)
  deriving DecidableEq, Repr

/-- The audio signals (spec/44_timers.md R197). -/
inductive Signal where
  | toneOn
  | toneOff
  deriving DecidableEq, Repr

/-- The events the environment delivers (spec/00_scope.md R9). A key number above 15 cannot be written
(spec/43_input.md R170; log 10). -/
inductive Event where
  /-- `Reset(rom)` (spec/70_reset_and_hazards.md R270). -/
  | reset (rom : List Byte)
  /-- `Step(now, rnd)` (spec/30_encoding.md R84). -/
  | step (now : Nat) (rnd : Byte)
  /-- `TimerTick(now)` (spec/44_timers.md R195). -/
  | timerTick (now : Nat)
  /-- `KeyDown(k)` (spec/43_input.md R170). -/
  | keyDown (k : Key)
  /-- `KeyUp(k)` (spec/43_input.md R171). -/
  | keyUp (k : Key)
  /-- `Present` (spec/45_display.md R217). -/
  | present
  /-- `Snapshot` (spec/60_exceptions.md R256). -/
  | snapshot
  /-- `Quit` (spec/70_reset_and_hazards.md R277). -/
  | quit
  deriving DecidableEq, Repr

/-- What a `Snapshot` returns (spec/60_exceptions.md R256), the display buffer among it (spec/10_state.md R26; log 27). -/
structure DebugDump where
  pc : Word
  i : Word
  v : Vector Byte 16
  delay : Byte
  sound : Byte
  stack : List Word
  memory : List Byte
  fb : List Bool
  halted : Option FaultRecord
  deriving DecidableEq, Repr

/-- What an event returns to the host (spec/70_reset_and_hazards.md R275). -/
inductive Reply where
  /-- The result of a `Present` (spec/45_display.md R217). -/
  | frame (d : Display)
  /-- The result of a `Snapshot`. -/
  | dump (d : DebugDump)
  deriving DecidableEq, Repr

/-- The machine. The fields from `v` to `audio` are the spec's state (spec/10_state.md), `cfg` is the spec's
configuration (log 3), and the fields after it are the model's own. -/
structure State where
  /-- V0 to VF (R20). -/
  v : Vector Byte 16
  /-- The index register (R22). -/
  i : Word
  /-- The program counter (R23). -/
  pc : Word
  /-- The return addresses, the top first (R24; log 26). -/
  stack : List Word
  /-- The delay timer (R25). -/
  dt : Timer
  /-- The sound timer (R25). -/
  st : Timer
  /-- The display buffer and the dirty tracking (R26, R27). -/
  display : Display
  /-- The keys that are down (R28). -/
  keys : Vector Bool 16
  /-- The blocking key wait (R29). -/
  wait : Wait
  /-- The fault latch (R30). -/
  halted : Option FaultRecord
  /-- The memory (R33; spec/20_memory.md R50): the cells that differ from their reset byte, addresses rising. -/
  mem : List Host.Cell
  /-- The audio signals emitted since reset, oldest first (spec/44_timers.md R197). -/
  audio : List Signal
  /-- The configuration (spec/00_scope.md R5): no rule writes it. -/
  cfg : Config
  /-- The events the environment has yet to deliver, oldest first (log 1). -/
  inbox : List Event
  /-- The latest clock reading used: no later one is smaller (spec/44_timers.md R190; log 2). -/
  now : Nat
  /-- The random byte the `Step` being executed carries; then `now` is its clock reading. `none`: its inputs are
  free values (log 2). -/
  stepRnd : Option Byte
  /-- How many free values have been drawn (log 2). -/
  draws : Nat
  /-- What `Present` and `Snapshot` have returned, oldest first (log 12). -/
  replies : List Reply
  /-- The host has delivered `Quit` (log 9). -/
  ended : Bool
  deriving DecidableEq, Repr

/-- Why the machine has no next state. The five faults of the hardware are not among these: raising one is a next
state with `halted` set (spec/60_exceptions.md R248; log 8). -/
inductive Fault where
  /-- Raised by `step` after `Quit` when the next event is no `Reset`: the run is over, and no rule says what comes
  after it (spec/70_reset_and_hazards.md R277; log 9). Safe: the model stops. -/
  | runEnded
  deriving DecidableEq, Repr

/-- Why a step has no meaning. No instruction ends in one. -/
inductive Refusal where
  /-- Raised only by an arm of `exec` whose instruction has no meaning yet. Safe: the model stops. -/
  | notModelled (mnemonic : String)
  /-- Raised by the events `Step` and `TimerTick` with a clock reading below an earlier one: outside the host's
  contract (spec/93_implementation_defined.md I18; log 10). Safe: the model stops. -/
  | clockBackwards
  /-- Raised by the event `Reset` with a ROM of more than 3584 bytes: outside the host's contract
  (spec/93_implementation_defined.md I17; log 10). Safe: the model stops. -/
  | romTooLong
  deriving DecidableEq, Repr

/-- The outcome of a step of this machine. -/
abbrev Result := Host.Outcome State Fault Refusal

/-- The display after reset: clear and fully dirty (spec/10_state.md R35; log 6). -/
def Display.reset (c : Config) : Display where
  fb := List.replicate (c.displayW * c.displayH) false
  dirtyRows := List.replicate c.displayH true
  dirtyRects := [{ x := 0, y := 0, w := c.displayW, h := c.displayH }]
  clearPending := true

/-- The state after `Reset` with an empty ROM under the configuration `c` (spec/10_state.md R35; log 6). -/
def State.fresh (c : Config) : State where
  v := Vector.replicate 16 0
  i := 0
  pc := 0x200
  stack := []
  dt := { value := 0, last := none }
  st := { value := 0, last := none }
  display := Display.reset c
  keys := Vector.replicate 16 false
  wait := .idle
  halted := none
  mem := []
  audio := []
  cfg := c
  inbox := []
  now := 0
  stepRnd := none
  draws := 0
  replies := []
  ended := false

/-- The machine right after reset (spec/10_state.md R35), no program loaded (log 11). -/
def State.reset : State := State.fresh Config.initial

end Sys2Proof.Machine
end

