-- ==== Sys2Proof/Machine/Ops.lean ====
section
/-!
DEFINITION. The named operations over memory, registers, the program counter, the stack, the inputs of a step and the
fault latch. Every access of an instruction goes through these.
-/

namespace Sys2Proof.Machine

/-! ### Memory -/

/-- What an address that `mem` does not list reads as: its reset byte (spec/10_state.md R35), the font at 0x000 to
0x04F and zero elsewhere (log 5, 6). -/
def Memory.resetByte (font : List Byte) (a : Nat) : Byte :=
  if a < Config.fontBytes then font.getD a 0 else 0

/-- The byte at an address: its cell, or the reset byte where no cell lists it. -/
def Memory.read (font : List Byte) : List Host.Cell → Nat → Byte
  | [], a => Memory.resetByte font a
  | c :: rest, a => if a = c.1 then c.2 else Memory.read font rest a

/-- A cell put before the first cell with an address above its own. -/
def Memory.insert (c : Host.Cell) : List Host.Cell → List Host.Cell
  | [] => [c]
  | d :: rest => if c.1 < d.1 then c :: d :: rest else d :: Memory.insert c rest

/-- One byte written, the canonical form kept: a cell that would hold its reset byte is not listed. -/
def Memory.write (font : List Byte) (m : List Host.Cell) (a : Nat) (b : Byte) : List Host.Cell :=
  let others := m.filter (fun c => decide (c.1 ≠ a))
  if b = Memory.resetByte font a then others else Memory.insert (a, b) others

/-- Bytes written at ascending addresses from `a` on. -/
def Memory.load (font : List Byte) (m : List Host.Cell) (a : Nat) : List Byte → List Host.Cell
  | [] => m
  | b :: rest => Memory.load font (Memory.write font m a b) (a + 1) rest

/-- The canonical form: addresses strictly rising, inside the memory, and no cell that holds its reset byte. -/
abbrev Memory.wf (font : List Byte) (m : List Host.Cell) : Prop :=
  (m.map (·.1)).Pairwise (· < ·) ∧ ∀ c ∈ m, c.1 < Config.memSize ∧ c.2 ≠ Memory.resetByte font c.1

/-- The byte at an address, with no check (the host's view of memory, spec/60_exceptions.md R256). -/
def State.readByte (s : State) (a : Nat) : Byte := Memory.read s.cfg.font s.mem a

/-- A byte stored at an address, with no check. -/
def State.writeByte (s : State) (a : Nat) (b : Byte) : State :=
  { s with mem := Memory.write s.cfg.font s.mem a b }

/-! ### Taking a fault -/

/-- FAULT ENTRY, shared by every fault (spec/60_exceptions.md R248): the latch is set and nothing else changes. `PC`
stays at the faulting instruction; there is no handler. There is no return from a fault (R249): only the event
`Reset` clears the latch (`State.restart`). -/
def State.raise (s : State) (f : FaultRecord) : State := { s with halted := some f }

/-- The numeric code of a fault kind (spec/60_exceptions.md R240). -/
def FaultRecord.code : FaultRecord → Nat
  | .invalidOpcode _ => 1
  | .addressBounds _ => 2
  | .stackUnderflow _ => 3
  | .stackOverflow _ => 4
  | .invalidDigit _ => 5

/-- The outcome of a part of an instruction that can raise a fault: done with a value, or raised. Both hold the
state reached, so that effects before the fault stay (spec/20_memory.md R58). -/
inductive Attempt (α : Type) where
  | done (a : α) (s : State)
  | raised (s : State)

/-- `MemRead(addr, 1)` (spec/20_memory.md R53). -/
def State.memRead (s : State) (addr : Nat) : Attempt Byte :=
  if addr > 0xFFF then .raised (s.raise (.addressBounds addr)) else .done (s.readByte addr) s

/-- `MemWrite(addr, 1, b)` (spec/20_memory.md R53). -/
def State.memWrite (s : State) (addr : Nat) (b : Byte) : Attempt Unit :=
  if addr > 0xFFF then .raised (s.raise (.addressBounds addr)) else .done () (s.writeByte addr b)

/-- `Fetch(PC)` (spec/20_memory.md R54): the opcode at `PC`, or the fault latched. -/
def State.fetch (s : State) : Attempt Word :=
  if s.pc.toNat < Config.progBase ∨ s.pc.toNat > 0xFFE then .raised (s.raise (.addressBounds s.pc.toNat))
  else .done (joinBytes (s.readByte s.pc.toNat) (s.readByte (s.pc.toNat + 1))) s

/-! ### Registers -/

/-- `V[x]` (spec/10_state.md R20). -/
def State.getV (s : State) (x : Reg) : Byte := s.v[x.val]

/-- `V[x] <- b` (spec/10_state.md R20). -/
def State.setV (s : State) (x : Reg) (b : Byte) : State := { s with v := s.v.set x.val b x.isLt }

/-- `I <- w` (spec/10_state.md R22). -/
def State.setI (s : State) (w : Word) : State := { s with i := w }

/-- `PC <- w` (spec/10_state.md R23). -/
def State.setPc (s : State) (w : Word) : State := { s with pc := w }

/-- The auto-advance `PC <- PC + 2` (spec/30_encoding.md R84). -/
def State.advance (s : State) : State := s.setPc (s.pc + 2)

/-- A skip: `PC + 4` when the condition holds, else `PC + 2` (spec/41_control_flow.md R130). -/
def State.skipIf (s : State) (c : Bool) : State := s.setPc (if c then s.pc + 4 else s.pc + 2)

/-! ### The call stack (spec/10_state.md R24) -/

/-- The stack holds `STACK_DEPTH` entries and that is a number. -/
def State.stackFull (s : State) : Bool :=
  match s.cfg.stackDepth with
  | some depth => decide (s.stack.length = depth)
  | none => false

/-- `push(w)`. -/
def State.push (s : State) (w : Word) : State := { s with stack := w :: s.stack }

/-! ### The inputs of a step (spec/00_scope.md R9; log 2) -/

/-- `now` of the `Step` being executed: carried by its event, or free and no smaller than any earlier reading. -/
def State.clockReading (s : State) : Nat :=
  if s.stepRnd.isSome then s.now else s.now + Config.clockAdvance s.draws

/-- The clock is read: the reading becomes the bound of the next, and a free value is used up. -/
def State.takeClock (s : State) : State := { s with now := s.clockReading, draws := s.draws + 1 }

/-- `draw_byte()` (spec/40_alu.md R111): carried by the event of the `Step`, or free. -/
def State.drawByte (s : State) : Byte := s.stepRnd.getD (Config.randomByte s.draws)

/-- The random byte is drawn: a free value is used up. -/
def State.takeDraw (s : State) : State := { s with draws := s.draws + 1 }

/-! ### Timers (spec/44_timers.md) -/

/-- A timer set to a value at a clock reading: a timer at 0 has no timestamp (spec/44_timers.md R192). -/
def Timer.set (b : Byte) (now : Nat) : Timer where
  value := b
  last := if b = 0 then none else some now

/-- The decay of one timer (spec/44_timers.md R195) with whether it came to 0. A running timer without a timestamp,
which no rule makes (spec/10_state.md R36 (a)), is left alone (log 24). -/
def Timer.decay (period now : Nat) (t : Timer) : Timer × Bool :=
  if t.value = 0 then (t, false) else
  match t.last with
  | none => (t, false)
  | some t0 =>
    let k := (now - t0) / period
    if t.value.toNat ≤ k then ({ value := 0, last := none }, true)
    else ({ value := t.value - BitVec.ofNat 8 k, last := some (t0 + k * period) }, false)

/-! ### The display (spec/45_display.md) -/

/-- The cell in column `x` of row `y`, for a display `w` wide (spec/10_state.md R26). -/
def Display.cell (d : Display) (w x y : Nat) : Bool := d.fb.getD (y * w + x) false

/-- `clear()` (spec/45_display.md R210). -/
def Display.cleared (w h : Nat) : Display where
  fb := List.replicate (w * h) false
  dirtyRows := List.replicate h true
  dirtyRects := [{ x := 0, y := 0, w := w, h := h }]
  clearPending := true

/-- Bit `j` of one sprite row, the leftmost first: a bit beyond the right edge is skipped, a 1 bit toggles its cell
and marks the row dirty, and a toggled cell that was 1 is a collision (spec/45_display.md R211). -/
def Display.plotBit (w x0 y : Nat) (b : Byte) (acc : Display × Bool) (j : Nat) : Display × Bool :=
  if x0 + j ≥ w then acc
  else if b.getLsbD (7 - j) then
    let was := acc.1.cell w (x0 + j) y
    ({ acc.1 with fb := acc.1.fb.set (y * w + (x0 + j)) (!was), dirtyRows := acc.1.dirtyRows.set y true },
      acc.2 || was)
  else acc

/-- `composite(x0, y, b)` with the collision it returns (spec/45_display.md R211, R212). -/
def Display.composite (d : Display) (w h x0 y : Nat) (b : Byte) : Display × Bool :=
  if y ≥ h then (d, false) else (List.range 8).foldl (Display.plotBit w x0 y b) (d, false)

/-- The drawn rectangle is recorded (spec/45_display.md R213). -/
def Display.addRect (d : Display) (r : Rect) : Display := { d with dirtyRects := d.dirtyRects ++ [r] }

/-- The dirty tracking is cleared (spec/45_display.md R217). -/
def Display.presented (d : Display) : Display where
  fb := d.fb
  dirtyRows := List.replicate d.dirtyRows.length false
  dirtyRects := []
  clearPending := false

end Sys2Proof.Machine
end

