-- ==== Sys2Proof/Machine/Flags.lean ====
section
/-!
DEFINITION. The values VF receives as a flag (spec/10_state.md R21) and the order of the writes (spec/40_alu.md R113).
-/

namespace Sys2Proof.Machine

/-- VF, the flag register (spec/10_state.md R21). -/
def vf : Reg := 15

/-- A flag write is the whole byte 0x00 or 0x01 (spec/10_state.md R21). -/
def flagByte (c : Bool) : Byte := if c then 1 else 0

/-- Carry of `a + b` (spec/40_alu.md R106). -/
def carryFlag (a b : Byte) : Byte := flagByte (decide (a.toNat + b.toNat > 255))

/-- Not-borrow of `minuend - subtrahend` (spec/40_alu.md R107). -/
def notBorrowFlag (minuend subtrahend : Byte) : Byte := flagByte (decide (minuend.toNat ≥ subtrahend.toNat))

/-- The bit a right shift shifts out (spec/40_alu.md R108). -/
def lowBitFlag (a : Byte) : Byte := flagByte (a.getLsbD 0)

/-- The bit a left shift shifts out (spec/40_alu.md R110). -/
def highBitFlag (a : Byte) : Byte := flagByte (a.getLsbD 7)

/-- The data result to `V[x]`, then the flag to VF (spec/40_alu.md R113). -/
def State.setDataThenFlag (s : State) (x : Reg) (data flag : Byte) : State := (s.setV x data).setV vf flag

/-- The result of a logic operation to `V[x]`, then VF cleared under `QUIRK_LOGIC_VF0` (spec/40_alu.md R103, R114). -/
def State.setLogic (s : State) (x : Reg) (data : Byte) : State :=
  { s with v := if s.cfg.quirkLogicVf0 then (s.setDataThenFlag x data 0).v else (s.setV x data).v }

end Sys2Proof.Machine
end

