-- ==== Sys2Proof/Machine/Operands.lean ====
section
/-!
DEFINITION. The operand forms: what an operand field stands for.
-/

namespace Sys2Proof.Machine

/-- An address immediate, zero-extended (spec/30_encoding.md R73). -/
def addressOperand (nnn : Addr12) : Word := nnn.setWidth 16

/-- A register, zero-extended to 16 bits (spec/00_scope.md R8). -/
def State.wideV (s : State) (x : Reg) : Word := (s.getV x).setWidth 16

/-- What a shift shifts: `Vy` under `QUIRK_SHIFT_VY`, else `Vx` (spec/40_alu.md R108). -/
def State.shiftOperand (s : State) (x y : Reg) : Byte := if s.cfg.quirkShiftVy then s.getV y else s.getV x

/-- Register-indirect: `I + j` on naturals, not reduced (spec/42_index_memory.md R156). -/
def State.indirect (s : State) (j : Nat) : Nat := s.i.toNat + j

/-- The key a register names is down; a value above 0x0F names none (spec/43_input.md R172). -/
def State.keyPressed (s : State) (x : Reg) : Bool := s.keys.toList.getD (s.getV x).toNat false

/-- The hundreds digit of a byte (spec/42_index_memory.md R153). -/
def hundreds (b : Byte) : Byte := BitVec.ofNat 8 (b.toNat / 100)

/-- The tens digit of a byte (spec/42_index_memory.md R153). -/
def tens (b : Byte) : Byte := BitVec.ofNat 8 (b.toNat / 10 % 10)

/-- The units digit of a byte (spec/42_index_memory.md R153). -/
def units (b : Byte) : Byte := BitVec.ofNat 8 (b.toNat % 10)

end Sys2Proof.Machine
end

