-- ==== Sys2Proof/Machine/Alu.lean ====
section
/-!
DEFINITION. Register load, arithmetic, logic, shift and random (spec/40_alu.md). Operands are read before any write
(R113); none of these can fault, and each auto-advances.
-/

namespace Sys2Proof.Machine

/-- `LD Vx, kk` (spec/40_alu.md R100). -/
def execLdImm (x : Reg) (kk : Byte) (s : State) : Result := .next (s.setV x kk).advance

/-- `ADD Vx, kk` (spec/40_alu.md R101): wraps, no flag. -/
def execAddImm (x : Reg) (kk : Byte) (s : State) : Result := .next (s.setV x (s.getV x + kk)).advance

/-- `LD Vx, Vy` (spec/40_alu.md R102). PRESUMED (log 16): the spec has it from general knowledge. -/
def execLdReg (x y : Reg) (s : State) : Result := .next (s.setV x (s.getV y)).advance

/-- `OR Vx, Vy` (spec/40_alu.md R103). -/
def execOr (x y : Reg) (s : State) : Result := .next (s.setLogic x (s.getV x ||| s.getV y)).advance

/-- `AND Vx, Vy` (spec/40_alu.md R104). -/
def execAnd (x y : Reg) (s : State) : Result := .next (s.setLogic x (s.getV x &&& s.getV y)).advance

/-- `XOR Vx, Vy` (spec/40_alu.md R105). -/
def execXor (x y : Reg) (s : State) : Result := .next (s.setLogic x (s.getV x ^^^ s.getV y)).advance

/-- `ADD Vx, Vy` (spec/40_alu.md R106). -/
def execAddReg (x y : Reg) (s : State) : Result :=
  .next (s.setDataThenFlag x (s.getV x + s.getV y) (carryFlag (s.getV x) (s.getV y))).advance

/-- `SUB Vx, Vy` (spec/40_alu.md R107). -/
def execSub (x y : Reg) (s : State) : Result :=
  .next (s.setDataThenFlag x (s.getV x - s.getV y) (notBorrowFlag (s.getV x) (s.getV y))).advance

/-- `SHR Vx, Vy` (spec/40_alu.md R108). -/
def execShr (x y : Reg) (s : State) : Result :=
  .next (s.setDataThenFlag x (s.shiftOperand x y >>> 1) (lowBitFlag (s.shiftOperand x y))).advance

/-- `SUBN Vx, Vy` (spec/40_alu.md R109). -/
def execSubn (x y : Reg) (s : State) : Result :=
  .next (s.setDataThenFlag x (s.getV y - s.getV x) (notBorrowFlag (s.getV y) (s.getV x))).advance

/-- `SHL Vx, Vy` (spec/40_alu.md R110). -/
def execShl (x y : Reg) (s : State) : Result :=
  .next (s.setDataThenFlag x (s.shiftOperand x y <<< 1) (highBitFlag (s.shiftOperand x y))).advance

/-- `RND Vx, kk` (spec/40_alu.md R111): the byte is a free value (log 2). -/
def execRnd (x : Reg) (kk : Byte) (s : State) : Result := .next (s.takeDraw.setV x (s.drawByte &&& kk)).advance

end Sys2Proof.Machine
end

