-- ==== Sys2Proof/Machine/Control.lean ====
section
/-!
DEFINITION. Skips, jumps, call and return (spec/41_control_flow.md). Each sets `PC` itself; a bad target faults at the
next fetch (R138).
-/

namespace Sys2Proof.Machine

/-- `SE Vx, kk` (spec/41_control_flow.md R130). -/
def execSeImm (x : Reg) (kk : Byte) (s : State) : Result := .next (s.skipIf (decide (s.getV x = kk)))

/-- `SNE Vx, kk` (spec/41_control_flow.md R131). -/
def execSneImm (x : Reg) (kk : Byte) (s : State) : Result := .next (s.skipIf (decide (s.getV x ≠ kk)))

/-- `SE Vx, Vy` (spec/41_control_flow.md R132). -/
def execSeReg (x y : Reg) (s : State) : Result := .next (s.skipIf (decide (s.getV x = s.getV y)))

/-- `SNE Vx, Vy` (spec/41_control_flow.md R133). -/
def execSneReg (x y : Reg) (s : State) : Result := .next (s.skipIf (decide (s.getV x ≠ s.getV y)))

/-- `JP nnn` (spec/41_control_flow.md R134). -/
def execJp (nnn : Addr12) (s : State) : Result := .next (s.setPc (addressOperand nnn))

/-- `JP V0, nnn` (spec/41_control_flow.md R135): the sum is not reduced modulo 4096 (log 18). -/
def execJpV0 (nnn : Addr12) (s : State) : Result := .next (s.setPc (addressOperand nnn + s.wideV 0))

/-- `CALL nnn` (spec/41_control_flow.md R136): `StackOverflow` on a full stack, else the address of the next
instruction is pushed (log 18). -/
def execCall (nnn : Addr12) (s : State) : Result :=
  .next (if s.stackFull then s.raise (.stackOverflow s.pc)
    else (s.push (s.pc + 2)).setPc (addressOperand nnn))

/-- `RET` (spec/41_control_flow.md R137): `StackUnderflow` on an empty stack, else `PC` is the popped address. -/
def execRet (s : State) : Result :=
  match s.stack with
  | [] => .next (s.raise (.stackUnderflow s.pc))
  | top :: rest => .next { s with stack := rest, pc := top }

end Sys2Proof.Machine
end

