-- ==== Sys2Proof/Machine/IndexMemory.lean ====
section
/-!
DEFINITION. The index register, BCD, block transfers and font addresses (spec/42_index_memory.md).
-/

namespace Sys2Proof.Machine

/-- `LD I, nnn` (spec/42_index_memory.md R150). -/
def execLdI (nnn : Addr12) (s : State) : Result := .next (s.setI (addressOperand nnn)).advance

/-- `ADD I, Vx` (spec/42_index_memory.md R151): modulo 4096, no flag. -/
def execAddI (x : Reg) (s : State) : Result :=
  .next (s.setI (BitVec.ofNat 16 ((s.i.toNat + (s.getV x).toNat) % 4096))).advance

/-- `LD F, Vx` (spec/42_index_memory.md R152): the whole register is tested. -/
def execLdF (x : Reg) (s : State) : Result :=
  if (s.getV x).toNat > 0x0F then .next (s.raise (.invalidDigit (s.getV x)))
  else .next (s.setI (BitVec.ofNat 16 (Config.glyphBytes * (s.getV x).toNat))).advance

/-- Bytes stored at `I + j`, `I + j + 1`, and so on, one at a time (spec/20_memory.md R58). -/
def State.storeBytes : State → List Byte → Nat → Attempt Unit
  | s, [], _ => .done () s
  | s, b :: rest, j =>
    match s.memWrite (s.indirect j) b with
    | .raised t => .raised t
    | .done _ t => t.storeBytes rest (j + 1)

/-- `LD B, Vx` (spec/42_index_memory.md R153): hundreds at the lowest address (log 22). -/
def execLdB (x : Reg) (s : State) : Result :=
  match s.storeBytes [hundreds (s.getV x), tens (s.getV x), units (s.getV x)] 0 with
  | .raised t => .next t
  | .done _ t => .next t.advance

/-- `count` registers from `Vj` on stored at `I`, which moves on with each (spec/42_index_memory.md R154). -/
def State.storeBlock : State → Nat → Nat → Attempt Unit
  | s, 0, _ => .done () s
  | s, count + 1, j =>
    match s.memWrite s.i.toNat (s.getV (Fin.ofNat 16 j)) with
    | .raised t => .raised t
    | .done _ t => (t.setI (t.i + 1)).storeBlock count (j + 1)

/-- `count` registers from `Vj` on loaded from `I`, which moves on with each (spec/42_index_memory.md R155). -/
def State.loadBlock : State → Nat → Nat → Attempt Unit
  | s, 0, _ => .done () s
  | s, count + 1, j =>
    match s.memRead s.i.toNat with
    | .raised t => .raised t
    | .done b t => ((t.setV (Fin.ofNat 16 j) b).setI (t.i + 1)).loadBlock count (j + 1)

/-- The end of a block transfer: `I` stays advanced under `QUIRK_INC_I`, else it is restored to `i0`
(spec/42_index_memory.md R154, R155). -/
def State.settleI (s : State) (i0 : Word) : State := s.setI (if s.cfg.quirkIncI then s.i else i0)

/-- `LD [I], Vx` (spec/42_index_memory.md R154). -/
def execStoreRegs (x : Reg) (s : State) : Result :=
  match s.storeBlock (x.val + 1) 0 with
  | .raised t => .next t
  | .done _ t => .next (t.settleI s.i).advance

/-- `LD Vx, [I]` (spec/42_index_memory.md R155). -/
def execLoadRegs (x : Reg) (s : State) : Result :=
  match s.loadBlock (x.val + 1) 0 with
  | .raised t => .next t
  | .done _ t => .next (t.settleI s.i).advance

end Sys2Proof.Machine
end

