-- ==== Sys2Proof/Machine/Input.lean ====
section
/-!
DEFINITION. The key skips and the blocking key wait (spec/43_input.md).
-/

namespace Sys2Proof.Machine

/-- `SKP Vx` (spec/43_input.md R172). -/
def execSkp (x : Reg) (s : State) : Result := .next (s.skipIf (s.keyPressed x))

/-- `SKNP Vx` (spec/43_input.md R173). -/
def execSknp (x : Reg) (s : State) : Result := .next (s.skipIf (!s.keyPressed x))

/-- The wait starts if none is under way (spec/43_input.md R174). -/
def Wait.start : Wait → Wait
  | .idle => .awaitingPress
  | .awaitingPress => .awaitingPress
  | .awaitingRelease k => .awaitingRelease k

/-- `LD Vx, K` (spec/43_input.md R174): the wait starts and `PC` stays. The register is written by the event `KeyUp`
that ends the wait, which reads its number from the instruction at `PC` (R171). -/
def execLdVxK (_x : Reg) (s : State) : Result := .next { s with wait := s.wait.start }

end Sys2Proof.Machine
end

