-- ==== Sys2Proof/Machine/Screen.lean ====
section
/-!
DEFINITION. The display instructions (spec/45_display.md).
-/

namespace Sys2Proof.Machine

/-- `CLS` (spec/45_display.md R210). -/
def execCls (s : State) : Result :=
  .next { s with display := Display.cleared s.cfg.displayW s.cfg.displayH }.advance

/-- One sprite row composited onto the display, with whether it collided (spec/45_display.md R211). -/
def State.drawRow (s : State) (x0 y : Nat) (b : Byte) : State × Bool :=
  let out := s.display.composite s.cfg.displayW s.cfg.displayH x0 y b
  ({ s with display := out.1 }, out.2)

/-- `count` sprite rows from `row` on: each byte is read before the row is clipped (spec/45_display.md R213; log 21).
`any` says whether a row before them collided. -/
def State.drawRows (x0 y0 : Nat) : State → Nat → Nat → Bool → Attempt Bool
  | s, 0, _, any => .done any s
  | s, count + 1, row, any =>
    match s.memRead (s.indirect row) with
    | .raised t => .raised t
    | .done b t =>
      State.drawRows x0 y0 (t.drawRow x0 (y0 + row) b).1 count (row + 1) (any || (t.drawRow x0 (y0 + row) b).2)

/-- The column a sprite starts at (spec/45_display.md R213). -/
def State.anchorX (s : State) (x : Reg) : Nat := (s.getV x).toNat % s.cfg.displayW

/-- The row a sprite starts at (spec/45_display.md R213). -/
def State.anchorY (s : State) (y : Reg) : Nat := (s.getV y).toNat % s.cfg.displayH

/-- The visible part of a sprite of `n` rows, recorded unless `n` is 0 (spec/45_display.md R213). -/
def State.recordRect (s : State) (x0 y0 n : Nat) : State :=
  let r : Rect := { x := x0, y := y0, w := min 8 (s.cfg.displayW - x0), h := min n (s.cfg.displayH - y0) }
  { s with display := if n = 0 then s.display else s.display.addRect r }

/-- `DRW Vx, Vy, n` (spec/45_display.md R213). -/
def execDrw (x y : Reg) (n : Nat) (s : State) : Result :=
  match State.drawRows (s.anchorX x) (s.anchorY y) s n 0 false with
  | .raised t => .next t
  | .done any t => .next ((t.recordRect (s.anchorX x) (s.anchorY y) n).setV vf (flagByte any)).advance

end Sys2Proof.Machine
end

