-- ==== Sys2Proof/Machine/Timers.lean ====
section
/-!
DEFINITION. The timer instructions (spec/44_timers.md).
-/

namespace Sys2Proof.Machine

/-- `LD Vx, DT` (spec/44_timers.md R191): the stored value, no decay applied (log 25). -/
def execLdVxDt (x : Reg) (s : State) : Result := .next (s.setV x s.dt.value).advance

/-- `LD DT, Vx` (spec/44_timers.md R192). -/
def execLdDtVx (x : Reg) (s : State) : Result :=
  .next { s.takeClock with dt := Timer.set (s.getV x) s.clockReading }.advance

/-- The audio signals of setting the sound timer from `old` to `new` (spec/44_timers.md R193; log 20). -/
def soundSignals (old new : Byte) : List Signal :=
  if new ≠ 0 then [.toneOn] else if old ≠ 0 then [.toneOff] else []

/-- `LD ST, Vx` (spec/44_timers.md R193). -/
def execLdStVx (x : Reg) (s : State) : Result :=
  .next { s.takeClock with
    st := Timer.set (s.getV x) s.clockReading,
    audio := s.audio ++ soundSignals s.st.value (s.getV x) }.advance

end Sys2Proof.Machine
end

