-- ==== Sys2Proof/Machine/Events.lean ====
section
/-!
DEFINITION. The events of the environment (spec/00_scope.md R9): what each does, and which one the next step
delivers (log 1).
-/

namespace Sys2Proof.Machine

/-- The instruction at `PC` fetched, decoded and executed (spec/30_encoding.md R84). The checks come in the order of
spec/60_exceptions.md R247. -/
def State.runInstruction (s : State) : Result :=
  match s.fetch with
  | .raised t => .next t
  | .done op t =>
    match decodeOpcode op with
    | some ins => exec ins t
    | none => .next (t.raise (.invalidOpcode op))

/-- `Step(now, rnd)` (spec/30_encoding.md R84, R85): nothing while halted, else one instruction. -/
def State.onStep (s : State) (now : Nat) (rnd : Byte) : Result :=
  if s.halted.isSome then .next s
  else if now < s.now then .refused .clockBackwards
  else { s with now := now, stepRnd := some rnd }.runInstruction

/-- The `Step` the environment delivers when it has queued no event: its inputs are free values (log 1, 2). -/
def State.onFreeStep (s : State) : Result :=
  if s.halted.isSome then .next s else { s with stepRnd := none }.runInstruction

/-- Both timers decayed to a clock reading (spec/44_timers.md R195). -/
def State.decayTimers (s : State) (now : Nat) : State :=
  let d := s.dt.decay s.cfg.timerPeriod now
  let t := s.st.decay s.cfg.timerPeriod now
  { s with dt := d.1, st := t.1, audio := if t.2 then s.audio ++ [.toneOff] else s.audio, now := now }

/-- `TimerTick(now)` (spec/44_timers.md R195). -/
def State.onTimerTick (s : State) (now : Nat) : Result :=
  if s.halted.isSome then .next s
  else if now < s.now then .refused .clockBackwards
  else .next (s.decayTimers now)

/-- The wait on a key going down (spec/43_input.md R170). -/
def Wait.press (w : Wait) (k : Key) : Wait :=
  match w with
  | .awaitingPress => .awaitingRelease k
  | .idle => .idle
  | .awaitingRelease j => .awaitingRelease j

/-- `KeyDown(k)` (spec/43_input.md R170). -/
def State.onKeyDown (s : State) (k : Key) : Result :=
  if s.halted.isSome then .next s
  else .next { s with keys := s.keys.set k.val true k.isLt, wait := s.wait.press k }

/-- The register of the `LD Vx, K` at `PC`: `mem[PC][3:0]` (spec/43_input.md R171; log 14). -/
def State.waitingReg (s : State) : Reg := Fin.ofNat 16 (slice (s.readByte s.pc.toNat).toNat 3 0)

/-- The wait is completed with a key: the register is written and `PC` moves on (spec/43_input.md R171). -/
def State.completeWait (s : State) (k : Key) : State :=
  { (s.setV s.waitingReg (BitVec.ofNat 8 k.val)).advance with wait := .idle }

/-- `KeyUp(k)` (spec/43_input.md R171). -/
def State.onKeyUp (s : State) (k : Key) : Result :=
  if s.halted.isSome then .next s
  else
    let t := { s with keys := s.keys.set k.val false k.isLt }
    .next (if s.wait = .awaitingRelease k then t.completeWait k else t)

/-- `Present` (spec/45_display.md R217): also while halted. -/
def State.onPresent (s : State) : Result :=
  .next { s with display := s.display.presented, replies := s.replies ++ [.frame s.display] }

/-- What a debugger is shown (spec/60_exceptions.md R256; the display buffer, spec/10_state.md R26; log 27). -/
def State.debugDump (s : State) : DebugDump where
  pc := s.pc
  i := s.i
  v := s.v
  delay := s.dt.value
  sound := s.st.value
  stack := s.stack
  memory := (List.range Config.memSize).map s.readByte
  fb := s.display.fb
  halted := s.halted

/-- `Snapshot` (spec/60_exceptions.md R256). -/
def State.onSnapshot (s : State) : Result := .next { s with replies := s.replies ++ [.dump s.debugDump] }

/-- `Quit` (spec/70_reset_and_hazards.md R277): the run ends (log 9). -/
def State.onQuit (s : State) : Result := .next { s with ended := true }

/-- The whole state created afresh with a ROM at 0x200 (spec/70_reset_and_hazards.md R270). What belongs to the
environment is kept: the configuration, the clock, the free values used, the events to come and the replies given
(log 13). -/
def State.restart (s : State) (rom : List Byte) : State :=
  { State.fresh s.cfg with
    mem := Memory.load s.cfg.font [] Config.progBase rom,
    inbox := s.inbox, now := s.now, draws := s.draws, replies := s.replies }

/-- `Reset(rom)` (spec/70_reset_and_hazards.md R270, R271). -/
def State.onReset (s : State) (rom : List Byte) : Result :=
  if rom.length > Config.maxRom then .refused .romTooLong else .next (s.restart rom)

/-- The event is a `Reset`. -/
def Event.isReset : Event → Bool
  | .reset _ => true
  | .step _ _ | .timerTick _ | .keyDown _ | .keyUp _ | .present | .snapshot | .quit => false

/-- What each event does (spec/00_scope.md R9). -/
def State.handle (s : State) (e : Event) : Result :=
  match e with
  | .reset rom => s.onReset rom
  | .step now rnd => s.onStep now rnd
  | .timerTick now => s.onTimerTick now
  | .keyDown k => s.onKeyDown k
  | .keyUp k => s.onKeyUp k
  | .present => s.onPresent
  | .snapshot => s.onSnapshot
  | .quit => s.onQuit

/-- One event delivered. After `Quit` only a `Reset` is (log 9). -/
def State.deliver (s : State) (e : Event) : Result :=
  if s.ended && !e.isReset then .fault .runEnded else s.handle e

/-- The next event happens: the oldest one queued, else a `Step` with free inputs (log 1). -/
def State.nextEvent (s : State) : Result :=
  match s.inbox with
  | e :: rest => { s with inbox := rest }.deliver e
  | [] => if s.ended then .fault .runEnded else s.onFreeStep

end Sys2Proof.Machine
end

