-- ==== Sys2Proof/Machine/Step.lean ====
section
/-!
DEFINITION. One step of the machine, and the host's way to place an instruction.
-/

namespace Sys2Proof.Machine

/-- One step: one event of the environment (spec/00_scope.md R9). -/
def step (s : State) : Host.Outcome State Fault Refusal := s.nextEvent

/-- An instruction's one word stored at `PC`, its high byte first (spec/20_memory.md R54), and nothing before it: no
event queued, no fault latched, the run not ended (log 11). -/
def State.withFetchWord (s : State) (nbits w : Nat) : State :=
  let op : Word := BitVec.ofNat 16 (w % 2 ^ nbits)
  { (s.writeByte s.pc.toNat (highByte op)).writeByte (s.pc.toNat + 1) (lowByte op) with
    inbox := [], halted := none, ended := false }

end Sys2Proof.Machine
end

