-- ==== Sys2Proof/Safety.lean ====
section
/-!
DEFINITION. What claims are stated in: the invariant of the machine (spec/10_state.md R36), what a run that goes on
is, and the frames of the instructions.
-/

namespace Sys2Proof.Machine

/-- The word at `PC`, high byte first (spec/20_memory.md R54). -/
def State.wordAtPc (s : State) : Word := joinBytes (s.readByte s.pc.toNat) (s.readByte (s.pc.toNat + 1))

/-- `PC` is in the range a fetch accepts (spec/20_memory.md R54). -/
abbrev State.fetchable (s : State) : Prop := 0x200 ≤ s.pc.toNat ∧ s.pc.toNat ≤ 0xFFE

/-- The buffer has `W * H` cells and the row marks are `H` (spec/10_state.md R26, R27). -/
abbrev Display.wf (c : Config) (d : Display) : Prop :=
  d.fb.length = c.displayW * c.displayH ∧ d.dirtyRows.length = c.displayH

/-- A timer has a timestamp iff it runs (spec/10_state.md R36 (a)), and none is later than the clock. -/
abbrev Timer.wf (now : Nat) (t : Timer) : Prop := (t.value = 0 ↔ t.last = none) ∧ ∀ t0 ∈ t.last, t0 ≤ now

/-- THE INVARIANT of the machine: spec/10_state.md R36 (a), (c) to (f), the sizes of the display, the canonical form
of the memory, the bound on `PC` (R23) and the audio level (spec/44_timers.md R197). -/
structure State.Inv (s : State) : Prop where
  config : s.cfg.wf
  memory : Memory.wf s.cfg.font s.mem
  display : s.display.wf s.cfg
  delay : s.dt.wf s.now
  sound : s.st.wf s.now
  index : s.i.toNat ≤ 0x1000
  counter : s.pc.toNat ≤ 0x10FE
  depth : ∀ d ∈ s.cfg.stackDepth, s.stack.length ≤ d
  returns : ∀ a ∈ s.stack, 0x202 ≤ a.toNat ∧ a.toNat ≤ 0x1000
  waiting : s.wait ≠ .idle → s.halted = none ∧ s.fetchable ∧ ∃ x, decodeOpcode s.wordAtPc = some (.ldVxK x)
  tone : s.audio.getLast? = some .toneOn ↔ s.st.value ≠ 0

/-- The environment has queued no event, the run goes on and the core is not halted: the next step executes the
instruction at `PC`. -/
abbrev State.stepsFreely (s : State) : Prop := s.inbox = [] ∧ s.ended = false ∧ s.halted = none

/-- The next event is a `Step` that executes an instruction, and `s0` is the state with the inputs of that `Step` taken:
free ones where no event is queued, else those of the oldest queued event, its clock not going back (log 1, 2). -/
def State.takesStep (s s0 : State) : Prop :=
  s.ended = false ∧ s.halted = none ∧
    (s.inbox = [] ∧ s0 = { s with stepRnd := none } ∨
      ∃ now rnd rest, s.inbox = .step now rnd :: rest ∧ s.now ≤ now ∧
        s0 = { s with inbox := rest, now := now, stepRnd := some rnd })

/-- The oldest queued event is `e` with `rest` behind it, and the run goes on. -/
abbrev State.nextIs (s : State) (e : Event) (rest : List Event) : Prop := s.inbox = e :: rest ∧ s.ended = false

/-- The program has ended: a jump to itself stands at `PC` and no wait is under way (spec/70_reset_and_hazards.md R277,
the spec's decision D26). -/
def State.programEnded (s : State) : Prop :=
  s.wait = .idle ∧ ∃ nnn : Addr12, s.pc.toNat = nnn.toNat ∧ decodeOpcode s.wordAtPc = some (.jp nnn)

/-! ### Frames -/

/-- Nothing differs but general registers and `PC`. -/
def State.sameButRegs (s t : State) : Prop := t = { s with v := t.v, pc := t.pc }

/-- Nothing differs but `PC`. -/
def State.sameButPc (s t : State) : Prop := t = { s with pc := t.pc }

/-- Nothing differs but `I` and `PC`. -/
def State.sameButIndex (s t : State) : Prop := t = { s with i := t.i, pc := t.pc }

/-- Every byte of memory reads as before. -/
def State.sameBytes (s t : State) : Prop := ∀ a, t.readByte a = s.readByte a

/-- A fault was raised: the latch holds it and nothing else differs, `PC` included (spec/60_exceptions.md R248). -/
def State.onlyFaulted (s t : State) (f : FaultRecord) : Prop := t = { s with halted := some f }

/-- The first address beyond the memory that ascending accesses from `I` on reach (spec/20_memory.md R53, R58). -/
def State.faultAddress (s : State) : Nat := max s.i.toNat 0x1000

/-! ### Timers -/

/-- `T'` is `T` after a `TimerTick` at `now` (spec/44_timers.md R195). -/
def Timer.tickedTo (period now : Nat) (T T' : Timer) : Prop :=
  (T.value = 0 → T' = T) ∧
  ∀ t0, T.value ≠ 0 → T.last = some t0 →
    ((now - t0) / period ≥ T.value.toNat → T'.value = 0 ∧ T'.last = none) ∧
    ((now - t0) / period < T.value.toNat →
      T'.value.toNat = T.value.toNat - (now - t0) / period ∧
      T'.last = some (t0 + (now - t0) / period * period))

/-! ### The display -/

/-- Cell `(c, r)` lies under a 1 bit of the sprite of `n` rows at `I`, its top left corner at `(x0, y0)`: the leftmost
bit of a row is bit 7 (spec/45_display.md R211, R213). -/
def State.spriteBit (s : State) (x0 y0 n c r : Nat) : Bool :=
  decide (x0 ≤ c ∧ c < x0 + 8 ∧ y0 ≤ r ∧ r < y0 + n) &&
    (s.readByte (s.i.toNat + (r - y0))).getLsbD (7 - (c - x0))

/-- Cell `(c, r)` of the display buffer. -/
def State.pixel (s : State) (c r : Nat) : Bool := s.display.cell s.cfg.displayW c r

/-- The cell is on the display. -/
abbrev State.onScreen (s : State) (c r : Nat) : Prop := c < s.cfg.displayW ∧ r < s.cfg.displayH

/-- Row `r` is marked dirty (spec/10_state.md R27). -/
def State.marked (s : State) (r : Nat) : Prop := s.display.dirtyRows.getD r false = true

/-- Cell `(c, r)` lies in a recorded rectangle (spec/10_state.md R27). -/
def State.covered (s : State) (c r : Nat) : Prop :=
  ∃ q ∈ s.display.dirtyRects, q.x ≤ c ∧ c < q.x + q.w ∧ q.y ≤ r ∧ r < q.y + q.h

/-- What a sprite drawn with `n` rows does to the cells and the row marks of the display, and to nothing else of it. -/
def State.spriteDrawn (s t : State) (x0 y0 n : Nat) : Prop :=
  t.display.wf s.cfg ∧ t.display.clearPending = s.display.clearPending ∧
  (∀ c r, s.onScreen c r → t.pixel c r = (s.pixel c r ^^ s.spriteBit x0 y0 n c r)) ∧
  ∀ r, t.marked r ↔ s.marked r ∨ ∃ c, s.onScreen c r ∧ s.spriteBit x0 y0 n c r = true

/-- The states differ at most in the dirty tracking and in what `Present` and `Snapshot` returned
(spec/10_state.md R27: "No instruction reads any of the three"). -/
def State.sameView (s t : State) : Prop :=
  t = { s with display := { t.display with fb := s.display.fb }, replies := t.replies }

end Sys2Proof.Machine

namespace Sys2Proof

/-- The general registers that receive an instruction's data result (spec/10_state.md R20). -/
def Instr.destinations : Instr → List Reg
  | .ldImm x _ | .addImm x _ | .rnd x _ | .ldVxDt x => [x]
  | .ldReg x _ | .or x _ | .and x _ | .xor x _ | .addReg x _ | .sub x _ | .shr x _ | .subn x _ | .shl x _ => [x]
  | .loadRegs x => (List.finRange 16).filter (fun r => decide (r ≤ x))
  | .cls | .ret | .jp _ | .call _ | .seImm _ _ | .sneImm _ _ | .seReg _ _ | .sneReg _ _ | .ldI _ | .jpV0 _ => []
  | .drw _ _ _ | .skp _ | .sknp _ | .ldVxK _ | .ldDtVx _ | .ldStVx _ | .addI _ | .ldF _ | .ldB _ => []
  | .storeRegs _ => []

/-- The instructions that write VF as a flag (spec/10_state.md R21). -/
def Instr.writesFlag (c : Config) : Instr → Bool
  | .addReg _ _ | .sub _ _ | .shr _ _ | .subn _ _ | .shl _ _ | .drw _ _ _ => true
  | .or _ _ | .and _ _ | .xor _ _ => c.quirkLogicVf0
  | .cls | .ret | .jp _ | .call _ | .seImm _ _ | .sneImm _ _ | .seReg _ _ | .sneReg _ _ | .ldI _ | .jpV0 _ => false
  | .ldImm _ _ | .addImm _ _ | .ldReg _ _ | .rnd _ _ | .skp _ | .sknp _ | .ldVxDt _ | .ldVxK _ => false
  | .ldDtVx _ | .ldStVx _ | .addI _ | .ldF _ | .ldB _ | .storeRegs _ | .loadRegs _ => false

end Sys2Proof
end

