-- ==== Sys2Proof/Certificates/Slice0/Obligations.lean ====
section
/-!
DEFINITION. The statements for the provers, from the rules of spec/. Where a clause rests on a choice of the model or
of the spec and not on the source, the docstring says so and names the log entry.
-/

open Sys2Proof Sys2Proof.Machine

/-! ### Decoding and the instruction cycle

The spec has the opcode assignment from general knowledge, but for the patterns 00E0, 6xkk, 7xkk, Annn and Dxyn (its
decision D19, log 16). A statement that names another word rests on that. -/

/-- spec/30_encoding.md section 2 (the assignment: log 16; the zero nibble written for classes 5 and 9: log 15): decoding the bytes of a well-formed instruction, whatever follows them, gives it and
leaves what follows. -/
def Obligations.DecodeEncodeRoundTrip : Prop :=
  ∀ (ins : Instr) (rest : List Byte), ins.wf = true → decode (encode ins ++ rest) = .ok (ins, rest)

/-- spec/30_encoding.md section 2 (log 15, 16): a decoded word is the encoding of the instruction it gives, but for the nibble that
classes 5 and 9 do not examine, and that instruction is well formed. -/
def Obligations.EncodeDecodeCanonical : Prop :=
  ∀ (op : Word) (ins : Instr), decodeOpcode op = some ins →
    ins.wf = true ∧ encodeOpcode ins = canonicalOpcode op

/-- spec/30_encoding.md section 2 (log 15, 16): a word is decoded as the row whose `op & mask = match`, and no word matches two rows. -/
def Obligations.DecoderFollowsOpcodeMap : Prop :=
  (∀ (op : Word) (ins : Instr), decodeOpcode op = some ins → op &&& ins.tableMask = ins.tableMatch) ∧
  (∀ (op : Word) (ins : Instr), op &&& ins.tableMask = ins.tableMatch →
    ∃ found, decodeOpcode op = some found ∧ found.tableMask = ins.tableMask ∧ found.tableMatch = ins.tableMatch) ∧
  (∀ (op : Word) (a b : Instr), op &&& a.tableMask = a.tableMatch → op &&& b.tableMask = b.tableMatch →
    a.tableMask = b.tableMask ∧ a.tableMatch = b.tableMatch)

/-- The illegal encodings are exactly these (spec/30_encoding.md section 2, the spec's derivation from its opcode map,
log 15, 16). -/
def Obligations.IllegalWordsAreRefused : Prop :=
  ∀ op : Word, decodeOpcode op = none ↔
    (fieldClass op = 0x0 ∧ op ≠ 0x00E0 ∧ op ≠ 0x00EE) ∨
    (fieldClass op = 0x8 ∧ fieldN op ∈ [0x8, 0x9, 0xA, 0xB, 0xC, 0xD, 0xF]) ∨
    (fieldClass op = 0xE ∧ slice op.toNat 7 0 ∉ [0x9E, 0xA1]) ∨
    (fieldClass op = 0xF ∧ slice op.toNat 7 0 ∉ [0x07, 0x0A, 0x15, 0x18, 0x1E, 0x29, 0x33, 0x55, 0x65])

/-- spec/95_test_vectors.md T1, T2: words written out there, as their bytes in address order (log 15, 16). -/
def Obligations.WordsFromTheSpecDecode : Prop :=
  decode [0x00, 0xE0] = .ok (.cls, []) ∧ decode [0x12, 0x0C] = .ok (.jp 0x20C, []) ∧
  decode [0x6A, 0x7F] = .ok (.ldImm 0xA 0x7F, []) ∧ decode [0x8A, 0xB4] = .ok (.addReg 0xA 0xB, []) ∧
  decode [0x50, 0x13] = .ok (.seReg 0 1, []) ∧ decode [0xD1, 0x2F] = .ok (.drw 1 2 15, []) ∧
  decode [0xE3, 0x9E] = .ok (.skp 3, []) ∧ decode [0xF2, 0x65] = .ok (.loadRegs 2, []) ∧
  decode [0x8A, 0xB8] = .error (.invalidOpcode 0x8AB8) ∧ decode [0x12, 0x34] = .ok (.jp 0x234, [])

/-- spec/30_encoding.md R84: a `Step` executes the instruction the bytes at `PC` decode to. With no event queued its
inputs are free; a queued `Step` sets the clock and supplies the random byte first (the model's fields `now` and
`stepRnd`, log 1, 2). -/
def Obligations.StepRunsTheDecodedInstruction : Prop :=
  ∀ (s : State) (ins : Instr), s.halted = none → s.ended = false → s.fetchable → ins.wf = true →
    decode [s.readByte s.pc.toNat, s.readByte (s.pc.toNat + 1)] = .ok (ins, []) →
    (s.inbox = [] → step s = exec ins { s with stepRnd := none }) ∧
    ∀ now rnd rest, s.inbox = .step now rnd :: rest → s.now ≤ now →
      step s = exec ins { s with inbox := rest, now := now, stepRnd := some rnd }

/-- spec/20_memory.md R54 and spec/60_exceptions.md R241, R242, R248 (fault entry is the spec's decision D14, log 8): a
fetch outside 0x200 to 0xFFE latches `AddressBounds(PC)`, a fetched word that is no instruction latches `InvalidOpcode`,
and nothing else of the machine changes, whether the `Step` is free or queued (`s0` is `s` with its inputs taken, log 1,
2). -/
def Obligations.FetchAndDecodeFaults : Prop :=
  ∀ s s0 : State, s.takesStep s0 →
    (s.pc.toNat < 0x200 ∨ s.pc.toNat > 0xFFE → ∃ t, step s = .next t ∧ s0.onlyFaulted t (.addressBounds s.pc.toNat)) ∧
    (s.fetchable → ∀ op : Word,
      op.toNat = (s.readByte s.pc.toNat).toNat * 256 + (s.readByte (s.pc.toNat + 1)).toNat →
      decodeOpcode op = none → ∃ t, step s = .next t ∧ s0.onlyFaulted t (.invalidOpcode op))

/-! ### Load, arithmetic, logic, shift, random -/

/-- spec/40_alu.md R100. -/
def Obligations.LoadImmediateResult : Prop :=
  ∀ (x : Reg) (kk : Byte),
    decodeOpcode (BitVec.ofNat 16 (0x6000 + 256 * x.val + kk.toNat)) = some (.ldImm x kk) ∧
    ∀ s : State, ∃ t, exec (.ldImm x kk) s = .next t ∧
      (∀ r, t.getV r = if r = x then kk else s.getV r) ∧ t.pc = s.pc + 2 ∧ s.sameButRegs t ∧ s.sameBytes t

/-- spec/40_alu.md R101: wraps modulo 256, and VF changes only where it is the destination. -/
def Obligations.AddImmediateResult : Prop :=
  ∀ (x : Reg) (kk : Byte),
    decodeOpcode (BitVec.ofNat 16 (0x7000 + 256 * x.val + kk.toNat)) = some (.addImm x kk) ∧
    ∀ s : State, ∃ t, exec (.addImm x kk) s = .next t ∧
      (t.getV x).toNat = ((s.getV x).toNat + kk.toNat) % 256 ∧
      (∀ r, r ≠ x → t.getV r = s.getV r) ∧ t.pc = s.pc + 2 ∧ s.sameButRegs t ∧ s.sameBytes t

/-- The register copy `8xy0`, which the spec has from general knowledge (log 16). -/
def Obligations.RegisterCopyResult : Prop :=
  ∀ (x y : Reg) (s : State), ∃ t, exec (.ldReg x y) s = .next t ∧
    (∀ r, t.getV r = if r = x then s.getV y else s.getV r) ∧ t.pc = s.pc + 2 ∧ s.sameButRegs t ∧ s.sameBytes t

/-- spec/40_alu.md R103, R104, R105 (opcode words: log 16): the bitwise result, then VF zeroed when the quirk is on. -/
def Obligations.LogicResults : Prop :=
  ∀ (x y : Reg),
    decodeOpcode (BitVec.ofNat 16 (0x8001 + 256 * x.val + 16 * y.val)) = some (.or x y) ∧
    decodeOpcode (BitVec.ofNat 16 (0x8002 + 256 * x.val + 16 * y.val)) = some (.and x y) ∧
    decodeOpcode (BitVec.ofNat 16 (0x8003 + 256 * x.val + 16 * y.val)) = some (.xor x y) ∧
    ∀ (s : State) (ins : Instr) (data : Byte),
      (ins = .or x y ∧ data = s.getV x ||| s.getV y ∨ ins = .and x y ∧ data = s.getV x &&& s.getV y ∨
        ins = .xor x y ∧ data = s.getV x ^^^ s.getV y) →
      ∃ t, exec ins s = .next t ∧
        (∀ r, t.getV r = if r = vf ∧ s.cfg.quirkLogicVf0 = true then 0 else if r = x then data else s.getV r) ∧
        t.pc = s.pc + 2 ∧ s.sameButRegs t ∧ s.sameBytes t

/-- spec/40_alu.md R106 (opcode words: log 16): the sum modulo 256, then the carry to VF. -/
def Obligations.AddRegistersResult : Prop :=
  ∀ (x y : Reg),
    decodeOpcode (BitVec.ofNat 16 (0x8004 + 256 * x.val + 16 * y.val)) = some (.addReg x y) ∧
    ∀ s : State, ∃ t, exec (.addReg x y) s = .next t ∧
      t.getV vf = (if (s.getV x).toNat + (s.getV y).toNat > 255 then 1 else 0) ∧
      (x ≠ vf → (t.getV x).toNat = ((s.getV x).toNat + (s.getV y).toNat) % 256) ∧
      (∀ r, r ≠ x → r ≠ vf → t.getV r = s.getV r) ∧ t.pc = s.pc + 2 ∧ s.sameButRegs t ∧ s.sameBytes t

/-- spec/40_alu.md R107, R109 (opcode words: log 16): minuend less subtrahend modulo 256, then not-borrow to VF. -/
def Obligations.SubtractResults : Prop :=
  ∀ (x y : Reg),
    decodeOpcode (BitVec.ofNat 16 (0x8005 + 256 * x.val + 16 * y.val)) = some (.sub x y) ∧
    decodeOpcode (BitVec.ofNat 16 (0x8007 + 256 * x.val + 16 * y.val)) = some (.subn x y) ∧
    ∀ (s : State) (ins : Instr) (a b : Nat),
      (ins = .sub x y ∧ a = (s.getV x).toNat ∧ b = (s.getV y).toNat ∨
        ins = .subn x y ∧ a = (s.getV y).toNat ∧ b = (s.getV x).toNat) →
      ∃ t, exec ins s = .next t ∧ t.getV vf = (if a ≥ b then 1 else 0) ∧
        (x ≠ vf → (t.getV x).toNat = if a ≥ b then a - b else a + 256 - b) ∧
        (∀ r, r ≠ x → r ≠ vf → t.getV r = s.getV r) ∧ t.pc = s.pc + 2 ∧ s.sameButRegs t ∧ s.sameBytes t

/-- spec/40_alu.md R108, R110 (opcode words: log 16): the shifted register is `Vy` under the quirk, else `Vx`; the bit shifted out goes to VF
after the data. -/
def Obligations.ShiftResults : Prop :=
  ∀ (x y : Reg),
    decodeOpcode (BitVec.ofNat 16 (0x8006 + 256 * x.val + 16 * y.val)) = some (.shr x y) ∧
    decodeOpcode (BitVec.ofNat 16 (0x800E + 256 * x.val + 16 * y.val)) = some (.shl x y) ∧
    ∀ (s : State) (ins : Instr) (a data flag : Nat),
      a = (if s.cfg.quirkShiftVy = true then s.getV y else s.getV x).toNat →
      (ins = .shr x y ∧ data = a / 2 ∧ flag = a % 2 ∨ ins = .shl x y ∧ data = a * 2 % 256 ∧ flag = a / 128) →
      ∃ t, exec ins s = .next t ∧ (t.getV vf).toNat = flag ∧ (x ≠ vf → (t.getV x).toNat = data) ∧
        (∀ r, r ≠ x → r ≠ vf → t.getV r = s.getV r) ∧ t.pc = s.pc + 2 ∧ s.sameButRegs t ∧ s.sameBytes t

/-- spec/40_alu.md R111 (opcode words: log 16): the drawn byte, any value, masked. The byte is what the `Step` carries, else a free value
(log 2); the model's counter of free values moves on. -/
def Obligations.RandomAndMaskResult : Prop :=
  ∀ (x : Reg) (kk : Byte),
    decodeOpcode (BitVec.ofNat 16 (0xC000 + 256 * x.val + kk.toNat)) = some (.rnd x kk) ∧
    ∀ s : State, ∃ (t : State) (b : Byte), exec (.rnd x kk) s = .next t ∧
      b = (match s.stepRnd with | some carried => carried | none => Config.randomByte s.draws) ∧
      (∀ r, t.getV r = if r = x then b &&& kk else s.getV r) ∧ t.getV x &&& ~~~kk = 0 ∧ t.pc = s.pc + 2 ∧
      t = { s with v := t.v, pc := t.pc, draws := s.draws + 1 } ∧ s.sameBytes t

/-! ### Skips, jumps, call and return -/

/-- spec/41_control_flow.md R130 to R133 (opcode words: log 16). The low nibble of classes 5 and 9 is not examined
(decision D18, log 15). Past 0xFFE the next fetch faults. -/
def Obligations.RegisterSkipsResult : Prop :=
  ∀ (x y : Reg) (kk : Byte) (low : Fin 16),
    decodeOpcode (BitVec.ofNat 16 (0x3000 + 256 * x.val + kk.toNat)) = some (.seImm x kk) ∧
    decodeOpcode (BitVec.ofNat 16 (0x4000 + 256 * x.val + kk.toNat)) = some (.sneImm x kk) ∧
    decodeOpcode (BitVec.ofNat 16 (0x5000 + 256 * x.val + 16 * y.val + low.val)) = some (.seReg x y) ∧
    decodeOpcode (BitVec.ofNat 16 (0x9000 + 256 * x.val + 16 * y.val + low.val)) = some (.sneReg x y) ∧
    ∀ (s : State) (ins : Instr) (taken : Prop),
      (ins = .seImm x kk ∧ (taken ↔ s.getV x = kk) ∨ ins = .sneImm x kk ∧ (taken ↔ s.getV x ≠ kk) ∨
        ins = .seReg x y ∧ (taken ↔ s.getV x = s.getV y) ∨ ins = .sneReg x y ∧ (taken ↔ s.getV x ≠ s.getV y)) →
      ∃ t, exec ins s = .next t ∧ (taken → t.pc = s.pc + 4) ∧ (¬taken → t.pc = s.pc + 2) ∧
        s.sameButPc t ∧ s.sameBytes t ∧ ∀ t0, t.takesStep t0 → 0xFFE < t.pc.toNat →
          ∃ u, step t = .next u ∧ t0.onlyFaulted u (.addressBounds t.pc.toNat)

/-- spec/41_control_flow.md R134 (opcode word: log 16). A target outside the range of a fetch faults at the next fetch. -/
def Obligations.JumpResult : Prop :=
  ∀ nnn : Addr12, decodeOpcode (BitVec.ofNat 16 (0x1000 + nnn.toNat)) = some (.jp nnn) ∧
    ∀ s : State, ∃ t, exec (.jp nnn) s = .next t ∧ t.pc.toNat = nnn.toNat ∧ s.sameButPc t ∧ s.sameBytes t ∧
      ∀ t0, t.takesStep t0 → nnn.toNat < 0x200 ∨ nnn.toNat = 0xFFF →
        ∃ u, step t = .next u ∧ t0.onlyFaulted u (.addressBounds nnn.toNat)

/-- `JP V0, nnn`: the sum is not reduced modulo 4096, which is the spec's decision D10 (log 18). -/
def Obligations.JumpWithOffsetResult : Prop :=
  ∀ (nnn : Addr12) (s : State), ∃ t, exec (.jpV0 nnn) s = .next t ∧
    t.pc.toNat = nnn.toNat + (s.getV 0).toNat ∧ s.sameButPc t ∧ s.sameBytes t

/-- `CALL nnn`: the address after the `CALL` is pushed (decision D5, log 18), or on a full bounded stack (decision D4,
log 4) `StackOverflow(PC)` is latched and nothing is pushed. -/
def Obligations.CallResult : Prop :=
  ∀ (nnn : Addr12) (s : State),
    (s.cfg.stackDepth ≠ some s.stack.length → ∃ t, exec (.call nnn) s = .next t ∧
      t.stack = (s.pc + 2) :: s.stack ∧ t.pc.toNat = nnn.toNat ∧
      t = { s with stack := t.stack, pc := t.pc } ∧ s.sameBytes t) ∧
    (s.cfg.stackDepth = some s.stack.length → ∃ t, exec (.call nnn) s = .next t ∧
      s.onlyFaulted t (.stackOverflow s.pc))

/-- `RET` (spec/41_control_flow.md section 4; opcode word: log 16): `PC` is the popped address, or `StackUnderflow(PC)` is latched. -/
def Obligations.ReturnResult : Prop :=
  decodeOpcode 0x00EE = some .ret ∧
  ∀ s : State,
    (∀ top rest, s.stack = top :: rest → ∃ t, exec .ret s = .next t ∧
      t.pc = top ∧ t.stack = rest ∧ t = { s with stack := t.stack, pc := t.pc } ∧ s.sameBytes t) ∧
    (s.stack = [] → ∃ t, exec .ret s = .next t ∧ s.onlyFaulted t (.stackUnderflow s.pc))

/-! ### Index register, BCD, block transfers, font -/

/-- spec/42_index_memory.md R150. -/
def Obligations.LoadIndexResult : Prop :=
  ∀ nnn : Addr12, decodeOpcode (BitVec.ofNat 16 (0xA000 + nnn.toNat)) = some (.ldI nnn) ∧
    ∀ s : State, ∃ t, exec (.ldI nnn) s = .next t ∧ t.i.toNat = nnn.toNat ∧ t.pc = s.pc + 2 ∧
      s.sameButIndex t ∧ s.sameBytes t

/-- spec/42_index_memory.md R151 (opcode word: log 16): modulo 4096, no flag. -/
def Obligations.AddToIndexResult : Prop :=
  ∀ x : Reg, decodeOpcode (BitVec.ofNat 16 (0xF01E + 256 * x.val)) = some (.addI x) ∧
    ∀ s : State, ∃ t, exec (.addI x) s = .next t ∧
      t.i.toNat = (s.i.toNat + (s.getV x).toNat) % 4096 ∧ t.pc = s.pc + 2 ∧ s.sameButIndex t ∧ s.sameBytes t

/-- `LD F, Vx`: five times the digit, or `InvalidDigit` for a register above 0x0F, tested whole (decision D27). -/
def Obligations.FontAddressResult : Prop :=
  ∀ (x : Reg) (s : State),
    ((s.getV x).toNat ≤ 0x0F → ∃ t, exec (.ldF x) s = .next t ∧ t.i.toNat = 5 * (s.getV x).toNat ∧
      t.pc = s.pc + 2 ∧ s.sameButIndex t ∧ s.sameBytes t) ∧
    (0x0F < (s.getV x).toNat → ∃ t, exec (.ldF x) s = .next t ∧ s.onlyFaulted t (.invalidDigit (s.getV x)))

/-- `LD B, Vx`: hundreds, tens and units at `I`, `I + 1`, `I + 2` (the order is the spec's decision D21, log 22). -/
def Obligations.BcdStoreResult : Prop :=
  ∀ (x : Reg) (s : State), s.i.toNat + 2 ≤ 0xFFF → ∃ t, exec (.ldB x) s = .next t ∧
    (t.readByte s.i.toNat).toNat = (s.getV x).toNat / 100 ∧
    (t.readByte (s.i.toNat + 1)).toNat = (s.getV x).toNat / 10 % 10 ∧
    (t.readByte (s.i.toNat + 2)).toNat = (s.getV x).toNat % 10 ∧
    (∀ a, a < s.i.toNat ∨ s.i.toNat + 2 < a → t.readByte a = s.readByte a) ∧
    t.pc = s.pc + 2 ∧ t = { s with mem := t.mem, pc := t.pc }

/-- `LD B, Vx` past the end of memory: the digits below 0x1000 stay stored and `AddressBounds` is latched with the first
address beyond (spec/20_memory.md R58, the spec's decision D15, log 21). -/
def Obligations.BcdStoreFaultsPartWay : Prop :=
  ∀ (x : Reg) (s : State), 0xFFF < s.i.toNat + 2 → ∃ t, exec (.ldB x) s = .next t ∧
    t = { s with mem := t.mem, halted := some (.addressBounds s.faultAddress) } ∧
    ∀ a, t.readByte a = if s.i.toNat ≤ a ∧ a < 0x1000
      then [hundreds (s.getV x), tens (s.getV x), units (s.getV x)].getD (a - s.i.toNat) 0 else s.readByte a

/-- `LD [I], Vx`: V0 to Vx stored from `I` on; `I` ends past them under the quirk, unreduced (decision D9, log 18), else
unchanged. -/
def Obligations.BlockStoreResult : Prop :=
  ∀ (x : Reg) (s : State), s.i.toNat + x.val ≤ 0xFFF → ∃ t, exec (.storeRegs x) s = .next t ∧
    (∀ r : Reg, r ≤ x → t.readByte (s.i.toNat + r.val) = s.getV r) ∧
    (∀ a, a < s.i.toNat ∨ s.i.toNat + x.val < a → t.readByte a = s.readByte a) ∧
    t.i.toNat = (if s.cfg.quirkIncI = true then s.i.toNat + x.val + 1 else s.i.toNat) ∧
    t.pc = s.pc + 2 ∧ t = { s with mem := t.mem, i := t.i, pc := t.pc }

/-- `LD [I], Vx` past the end of memory: the registers below 0x1000 stay stored, `I` is left at the faulting address
(the spec's derivation from its pseudocode, log 21). -/
def Obligations.BlockStoreFaultsPartWay : Prop :=
  ∀ (x : Reg) (s : State), 0xFFF < s.i.toNat + x.val → ∃ t, exec (.storeRegs x) s = .next t ∧
    t.i.toNat = s.faultAddress ∧
    t = { s with mem := t.mem, i := t.i, halted := some (.addressBounds s.faultAddress) } ∧
    (∀ r : Reg, s.i.toNat + r.val < 0x1000 → t.readByte (s.i.toNat + r.val) = s.getV r) ∧
    ∀ a, a < s.i.toNat ∨ 0x1000 ≤ a → t.readByte a = s.readByte a

/-- `LD Vx, [I]`: V0 to Vx loaded from `I` on; `I` as for the store. -/
def Obligations.BlockLoadResult : Prop :=
  ∀ (x : Reg) (s : State), s.i.toNat + x.val ≤ 0xFFF → ∃ t, exec (.loadRegs x) s = .next t ∧
    (∀ r : Reg, t.getV r = if r ≤ x then s.readByte (s.i.toNat + r.val) else s.getV r) ∧
    t.i.toNat = (if s.cfg.quirkIncI = true then s.i.toNat + x.val + 1 else s.i.toNat) ∧
    t.pc = s.pc + 2 ∧ t = { s with v := t.v, i := t.i, pc := t.pc } ∧ s.sameBytes t

/-- `LD Vx, [I]` past the end of memory: the registers read below 0x1000 stay loaded, `I` is left at the faulting address
(log 21). -/
def Obligations.BlockLoadFaultsPartWay : Prop :=
  ∀ (x : Reg) (s : State), 0xFFF < s.i.toNat + x.val → ∃ t, exec (.loadRegs x) s = .next t ∧
    t.i.toNat = s.faultAddress ∧
    t = { s with v := t.v, i := t.i, halted := some (.addressBounds s.faultAddress) } ∧
    (∀ r : Reg, t.getV r = if s.i.toNat + r.val < 0x1000 then s.readByte (s.i.toNat + r.val) else s.getV r) ∧
    s.sameBytes t

/-! ### Keys -/

/-- `SKP Vx`, `SKNP Vx`: a register above 0x0F names no key and reads as not pressed (decision D11, log 19). -/
def Obligations.KeySkipsResult : Prop :=
  ∀ (x : Reg) (s : State) (pressed : Prop),
    (pressed ↔ ∃ k : Key, (s.getV x).toNat = k.val ∧ s.keys[k.val] = true) →
    (∃ t, exec (.skp x) s = .next t ∧ (pressed → t.pc = s.pc + 4) ∧ (¬pressed → t.pc = s.pc + 2) ∧
      s.sameButPc t ∧ s.sameBytes t) ∧
    ∃ t, exec (.sknp x) s = .next t ∧ (¬pressed → t.pc = s.pc + 4) ∧ (pressed → t.pc = s.pc + 2) ∧
      s.sameButPc t ∧ s.sameBytes t

/-- `LD Vx, K`: from `Idle` the wait starts; in every state `PC` and the register stay (log 19). -/
def Obligations.KeyWaitStarts : Prop :=
  ∀ (x : Reg) (s : State), ∃ t, exec (.ldVxK x) s = .next t ∧
    (s.wait = .idle → t.wait = .awaitingPress) ∧ (s.wait ≠ .idle → t.wait = s.wait) ∧
    t = { s with wait := t.wait } ∧ s.sameBytes t

/-- `KeyDown(k)`: the key is down; a wait for a press takes it (log 19). -/
def Obligations.KeyDownEffect : Prop :=
  ∀ (s : State) (k : Key) (rest : List Event), s.nextIs (.keyDown k) rest → s.halted = none →
    ∃ t, step s = .next t ∧ (∀ j : Key, t.keys[j.val] = if j = k then true else s.keys[j.val]) ∧
      (s.wait = .awaitingPress → t.wait = .awaitingRelease k) ∧ (s.wait ≠ .awaitingPress → t.wait = s.wait) ∧
      t = { s with inbox := rest, keys := t.keys, wait := t.wait } ∧ s.sameBytes t

/-- `KeyUp(k)`: the key is up; the release of the awaited key writes the register of the instruction at `PC` and moves
`PC` on (decision D12, log 14, 19). -/
def Obligations.KeyUpEffect : Prop :=
  ∀ (s : State) (k : Key) (rest : List Event), s.nextIs (.keyUp k) rest → s.halted = none →
    ∃ t, step s = .next t ∧ (∀ j : Key, t.keys[j.val] = if j = k then false else s.keys[j.val]) ∧
      (s.wait = .awaitingRelease k → t.wait = .idle ∧ t.pc = s.pc + 2 ∧
        (∀ r : Reg, (t.getV r).toNat =
          if r.val = (s.readByte s.pc.toNat).toNat % 16 then k.val else (s.getV r).toNat)) ∧
      (s.wait ≠ .awaitingRelease k → t.wait = s.wait ∧ t.pc = s.pc ∧ t.v = s.v) ∧
      t = { s with inbox := rest, keys := t.keys, wait := t.wait, pc := t.pc, v := t.v } ∧ s.sameBytes t

/-- `LD Vx, K` (spec/43_input.md section 3, decision D33): a `Step` delivered during a wait changes nothing (but the model's own record of the
inputs of the step, log 2), in every state of the invariant. -/
def Obligations.StepsDuringAWaitChangeNothing : Prop :=
  ∀ s : State, s.Inv → s.wait ≠ .idle → s.ended = false →
    (s.inbox = [] → step s = .next { s with stepRnd := none }) ∧
    ∀ now rnd rest, s.inbox = .step now rnd :: rest → s.now ≤ now →
      step s = .next { s with inbox := rest, now := now, stepRnd := some rnd }

/-! ### Timers -/

/-- `LD Vx, DT`: the stored value, no decay applied (decision D28, log 25). -/
def Obligations.ReadDelayTimerResult : Prop :=
  ∀ (x : Reg) (s : State), ∃ t, exec (.ldVxDt x) s = .next t ∧
    (∀ r, t.getV r = if r = x then s.dt.value else s.getV r) ∧ t.pc = s.pc + 2 ∧ s.sameButRegs t ∧ s.sameBytes t

/-- spec/44_timers.md R192 (opcode word: log 16): the value, and the reading `now` as timestamp unless the value is 0. The reading is the
`Step`'s, else a free value no smaller than any earlier (log 2). -/
def Obligations.SetDelayTimerResult : Prop :=
  ∀ x : Reg, decodeOpcode (BitVec.ofNat 16 (0xF015 + 256 * x.val)) = some (.ldDtVx x) ∧
    ∀ s : State, ∃ t, exec (.ldDtVx x) s = .next t ∧
      t.dt.value = s.getV x ∧ t.dt.last = (if s.getV x ≠ 0 then some t.now else none) ∧
      s.now ≤ t.now ∧ (s.stepRnd.isSome = true → t.now = s.now) ∧ t.pc = s.pc + 2 ∧
      t = { s with dt := t.dt, pc := t.pc, now := t.now, draws := s.draws + 1 } ∧ s.sameBytes t

/-- `LD ST, Vx`: as the delay timer, and the audio signals; that setting a running timer to 0 emits `tone_off` is the
spec's decision D13 (log 20). -/
def Obligations.SetSoundTimerResult : Prop :=
  ∀ (x : Reg) (s : State), ∃ t, exec (.ldStVx x) s = .next t ∧
    t.st.value = s.getV x ∧ t.st.last = (if s.getV x ≠ 0 then some t.now else none) ∧
    t.audio = s.audio ++
      (if s.getV x ≠ 0 then [Signal.toneOn] else if s.st.value ≠ 0 then [Signal.toneOff] else []) ∧
    s.now ≤ t.now ∧ (s.stepRnd.isSome = true → t.now = s.now) ∧ t.pc = s.pc + 2 ∧
    t = { s with st := t.st, audio := t.audio, pc := t.pc, now := t.now, draws := s.draws + 1 } ∧ s.sameBytes t

/-- spec/44_timers.md section 3: both timers decay by the whole periods elapsed, each with its own phase, and the sound
timer coming to 0 emits `tone_off`. The inbox and the kept clock are the model's (log 1, 2). That a halted core does
nothing, whatever the reading, rests on the fault latch (decisions D14, D29, log 8) and on log 10. -/
def Obligations.TimerTickEffect : Prop :=
  ∀ (s : State) (now : Nat) (rest : List Event), s.nextIs (.timerTick now) rest →
    (s.halted ≠ none → step s = .next { s with inbox := rest }) ∧
    (s.halted = none → s.now ≤ now → s.cfg.wf → s.dt.wf s.now → s.st.wf s.now →
      ∃ t, step s = .next t ∧ Timer.tickedTo s.cfg.timerPeriod now s.dt t.dt ∧
        Timer.tickedTo s.cfg.timerPeriod now s.st t.st ∧
        t.audio = s.audio ++ (if s.st.value ≠ 0 ∧ t.st.value = 0 then [Signal.toneOff] else []) ∧
        t = { s with inbox := rest, now := now, dt := t.dt, st := t.st, audio := t.audio } ∧ s.sameBytes t)

/-- spec/44_timers.md section 3 (the spec's derivation R196 (c)): a tick in between does not matter. -/
def Obligations.TimerDecayComposes : Prop :=
  ∀ (t : Timer) (period between now : Nat), 1 ≤ period → t.wf between → between ≤ now →
    ((t.decay period between).1.decay period now).1 = (t.decay period now).1

/-- spec/44_timers.md section 3 (R196 (a), (b)): a timer never grows, a timer at 0 stays as it is, and the remainder kept is less than
a period. -/
def Obligations.TimerDecayBounds : Prop :=
  ∀ (t : Timer) (period now : Nat), 1 ≤ period → t.wf now →
    (t.decay period now).1.value.toNat ≤ t.value.toNat ∧
    (t.value = 0 → (t.decay period now).1 = t) ∧
    (∀ t1, (t.decay period now).1.last = some t1 → t1 ≤ now ∧ now - t1 < period) ∧
    (t.decay period now).1.wf now

/-! ### Display -/

/-- `CLS`: every cell 0 and the whole buffer dirty (the form of the dirty tracking is decision D16, log 23). -/
def Obligations.ClearScreenResult : Prop :=
  ∀ s : State, ∃ t, exec .cls s = .next t ∧ (∀ c r, t.pixel c r = false) ∧ t.display.wf s.cfg ∧
    (∀ r, r < s.cfg.displayH → t.marked r) ∧
    t.display.dirtyRects = [{ x := 0, y := 0, w := s.cfg.displayW, h := s.cfg.displayH }] ∧
    t.display.clearPending = true ∧ t.pc = s.pc + 2 ∧
    t = { s with display := t.display, pc := t.pc } ∧ s.sameBytes t

/-- `DRW Vx, Vy, n`: the sprite is XORed onto the cells on the screen from the anchor on, with no wrap; VF is 1 iff a cell
went from 1 to 0; the visible box is recorded (the dirty tracking is decision D16, log 23). -/
def Obligations.DrawSpriteResult : Prop :=
  ∀ (x y : Reg) (n : Nat) (s : State) (x0 y0 : Nat), s.cfg.wf → s.display.wf s.cfg →
    (n = 0 ∨ s.i.toNat + n ≤ 0x1000) →
    x0 = (s.getV x).toNat % s.cfg.displayW → y0 = (s.getV y).toNat % s.cfg.displayH →
    ∃ t, exec (.drw x y n) s = .next t ∧ s.spriteDrawn t x0 y0 n ∧
      (t.getV vf = 0 ∨ t.getV vf = 1) ∧
      (t.getV vf = 1 ↔ ∃ c r, s.onScreen c r ∧ s.pixel c r = true ∧ t.pixel c r = false) ∧
      (∀ r, r ≠ vf → t.getV r = s.getV r) ∧
      t.display.dirtyRects = s.display.dirtyRects ++ (if n = 0 then []
        else [{ x := x0, y := y0, w := min 8 (s.cfg.displayW - x0), h := min n (s.cfg.displayH - y0) }]) ∧
      t.pc = s.pc + 2 ∧ t = { s with v := t.v, display := t.display, pc := t.pc } ∧ s.sameBytes t

/-- `DRW` past the end of memory: the rows whose bytes lie below 0x1000 stay drawn, VF and the rectangles are untouched,
and `AddressBounds` is latched wherever the sprite stands (decisions D15, D32, log 21). -/
def Obligations.DrawSpriteFaultsPartWay : Prop :=
  ∀ (x y : Reg) (n : Nat) (s : State) (x0 y0 : Nat), s.cfg.wf → s.display.wf s.cfg →
    0 < n → 0x1000 < s.i.toNat + n →
    x0 = (s.getV x).toNat % s.cfg.displayW → y0 = (s.getV y).toNat % s.cfg.displayH →
    ∃ t, exec (.drw x y n) s = .next t ∧ s.spriteDrawn t x0 y0 (0x1000 - s.i.toNat) ∧
      t.display.dirtyRects = s.display.dirtyRects ∧
      t = { s with display := t.display, halted := some (.addressBounds s.faultAddress) } ∧ s.sameBytes t

/-- spec/45_display.md section 2 (R214 (a)): drawing the same sprite at the same place twice gives the buffer back, and the second
draw reports a collision iff the first set a cell. -/
def Obligations.DrawingTwiceRestores : Prop :=
  ∀ (x y : Reg) (n : Nat) (s t u : State), s.cfg.wf → s.display.wf s.cfg → s.i.toNat + n ≤ 0x1000 →
    x ≠ vf → y ≠ vf → exec (.drw x y n) s = .next t → exec (.drw x y n) t = .next u →
    u.display.fb = s.display.fb ∧
    (u.getV vf = 1 ↔ ∃ c r, s.onScreen c r ∧ s.pixel c r = false ∧ t.pixel c r = true)

/-! ### The host -/

/-- `Present`, also while halted: the display with its dirty tracking is returned, and the tracking cleared (log 12). -/
def Obligations.PresentEffect : Prop :=
  ∀ (s : State) (rest : List Event), s.nextIs .present rest → ∃ t, step s = .next t ∧
    t.replies = s.replies ++ [.frame s.display] ∧ t.display.fb = s.display.fb ∧ (∀ r, ¬t.marked r) ∧
    t.display.dirtyRows.length = s.display.dirtyRows.length ∧ t.display.dirtyRects = [] ∧
    t.display.clearPending = false ∧
    t = { s with inbox := rest, display := t.display, replies := t.replies } ∧ s.sameBytes t

/-- `Snapshot`: the registers, timers, stack, all 4096 bytes of memory, the display buffer (log 27) and the fault record are
returned, and nothing changes (log 12). -/
def Obligations.SnapshotEffect : Prop :=
  ∀ (s : State) (rest : List Event), s.nextIs .snapshot rest → ∃ (t : State) (d : DebugDump), step s = .next t ∧
    t = { s with inbox := rest, replies := s.replies ++ [.dump d] } ∧
    d.pc = s.pc ∧ d.i = s.i ∧ d.v = s.v ∧ d.delay = s.dt.value ∧ d.sound = s.st.value ∧ d.stack = s.stack ∧
    d.halted = s.halted ∧ d.fb = s.display.fb ∧ d.memory.length = 4096 ∧ ∀ a, a < 4096 → d.memory.getD a 0 = s.readByte a

/-- `Reset(rom)`: the ROM from 0x200 on, the font below 0x050, zero elsewhere, every register as in the table of
spec/10_state.md R35 (most of it the spec's decisions D7, D8, D17, D20; log 5, 6); what belongs to the environment stays
(log 13). A ROM of more than 3584 bytes is refused (log 10). -/
def Obligations.ResetEventEffect : Prop :=
  ∀ (s : State) (rom : List Byte) (rest : List Event), s.inbox = .reset rom :: rest →
    (rom.length ≤ 3584 → ∃ t, step s = .next t ∧
      t = { State.fresh s.cfg with mem := t.mem, inbox := rest, now := s.now, draws := s.draws, replies := s.replies } ∧
      ∀ a, t.readByte a = if 0x200 ≤ a ∧ a < 0x200 + rom.length then rom.getD (a - 0x200) 0
        else if a < 0x50 then s.cfg.font.getD a 0 else 0) ∧
    (3584 < rom.length → step s = .refused .romTooLong)

/-- The state after reset, with the spec's values of spec/10_state.md R35 (its decisions D4, D7, D8, D14, D17, D20, D25;
log 4, 5, 6): the entry point, cleared registers, an empty stack, stopped timers, a clear dirty display of 64 by 32 cells,
no key, no wait, no fault, the 80 conventional font bytes of spec/20_memory.md R52 and zeros in memory. -/
def Obligations.ResetStateValues : Prop :=
  State.reset.pc = 0x200 ∧ State.reset.i = 0 ∧ (∀ r, State.reset.getV r = 0) ∧ State.reset.stack = [] ∧
  State.reset.dt = { value := 0, last := none } ∧ State.reset.st = { value := 0, last := none } ∧
  State.reset.cfg.displayW = 64 ∧ State.reset.cfg.displayH = 32 ∧ State.reset.cfg.stackDepth = some 16 ∧
  State.reset.display.fb.length = 2048 ∧ (∀ c r, State.reset.pixel c r = false) ∧
  State.reset.display.dirtyRows = List.replicate 32 true ∧
  State.reset.display.dirtyRects = [{ x := 0, y := 0, w := 64, h := 32 }] ∧
  State.reset.display.clearPending = true ∧ (∀ k : Key, State.reset.keys[k.val] = false) ∧
  State.reset.wait = .idle ∧ State.reset.halted = none ∧ State.reset.audio = [] ∧
  (List.range 80).map State.reset.readByte =
     [0xF0, 0x90, 0x90, 0x90, 0xF0,
      0x20, 0x60, 0x20, 0x20, 0x70,
      0xF0, 0x10, 0xF0, 0x80, 0xF0,
      0xF0, 0x10, 0xF0, 0x10, 0xF0,
      0x90, 0x90, 0xF0, 0x10, 0x10,
      0xF0, 0x80, 0xF0, 0x10, 0xF0,
      0xF0, 0x80, 0xF0, 0x90, 0xF0,
      0xF0, 0x10, 0x20, 0x40, 0x40,
      0xF0, 0x90, 0xF0, 0x90, 0xF0,
      0xF0, 0x90, 0xF0, 0x10, 0xF0,
      0xF0, 0x90, 0xF0, 0x90, 0x90,
      0xE0, 0x90, 0xE0, 0x90, 0xE0,
      0xF0, 0x80, 0x80, 0x80, 0xF0,
      0xE0, 0x90, 0x90, 0x90, 0xE0,
      0xF0, 0x80, 0xF0, 0x80, 0xF0,
      0xF0, 0x80, 0xF0, 0x80, 0x80] ∧
  ∀ a, 0x50 ≤ a → State.reset.readByte a = 0

/-- `Quit`: the state stays and the run is over: no step follows but the delivery of a `Reset` (the flag and what a step
after it answers are the model's choice, log 9). -/
def Obligations.QuitEndsTheRun : Prop :=
  (∀ (s : State) (rest : List Event), s.nextIs .quit rest → step s = .next { s with inbox := rest, ended := true }) ∧
  ∀ s : State, s.ended = true → (∀ rom rest, s.inbox ≠ .reset rom :: rest) → step s = .fault .runEnded

/-- spec/70_reset_and_hazards.md section 4 (the convention is decision D26, from general knowledge): at a jump to itself a
`Step`, free or queued, leaves every piece of state as it was, but for the model's inbox, clock and record of the inputs
of the step (`s0` is `s` with them taken, log 1, 2). -/
def Obligations.FinishedProgramStays : Prop :=
  ∀ s s0 : State, s.programEnded → s.fetchable → s.takesStep s0 → step s = .next s0

/-- spec/10_state.md R30 (the latch is decision D14, D29; log 8): while halted no event but `Reset` changes the machine,
and `Present` clears the dirty tracking only. -/
def Obligations.HaltedCoreKeepsItsState : Prop :=
  ∀ (s t : State), s.halted ≠ none → (∀ rom rest, s.inbox ≠ .reset rom :: rest) → step s = .next t →
    t = { s with inbox := s.inbox.tail, replies := t.replies, ended := t.ended,
                 display := { t.display with fb := s.display.fb } } ∧
    ((∀ rest, s.inbox ≠ .present :: rest) → t.display = s.display)

/-! ### The whole machine -/

/-- The invariant holds in the reset state. -/
def Obligations.InvariantHoldsAtReset : Prop := State.reset.Inv

/-- spec/10_state.md R36: from every state of the invariant, whatever event comes next, a step that gives a next state
gives one of the invariant. -/
def Obligations.StepKeepsTheInvariant : Prop := ∀ s t : State, s.Inv → step s = .next t → t.Inv

/-- Which instruction can write which piece of state, over all 34: memory, the display, the stack, `I`, the timers, the
wait and the fault latch each have the writers the spec names (spec/20_memory.md R50, spec/10_state.md R22 to R30,
spec/45_display.md R219), and no instruction writes the keys or the configuration. -/
def Obligations.InstructionsWriteOnlyTheirState : Prop :=
  ∀ (ins : Instr) (s t : State), exec ins s = .next t →
    (t.cfg = s.cfg ∧ t.keys = s.keys ∧ t.inbox = s.inbox ∧ t.replies = s.replies ∧ t.ended = s.ended ∧
      t.stepRnd = s.stepRnd) ∧
    ((∃ a, t.readByte a ≠ s.readByte a) → ∃ x, ins = .ldB x ∨ ins = .storeRegs x) ∧
    (t.display ≠ s.display → ins = .cls ∨ ∃ x y n, ins = .drw x y n) ∧
    (t.stack ≠ s.stack → ins = .ret ∨ ∃ nnn, ins = .call nnn) ∧
    (t.i ≠ s.i → (∃ nnn, ins = .ldI nnn) ∨ ∃ x, ins = .addI x ∨ ins = .ldF x ∨ ins = .storeRegs x ∨ ins = .loadRegs x) ∧
    (t.dt ≠ s.dt → ∃ x, ins = .ldDtVx x) ∧
    (t.st ≠ s.st ∨ t.audio ≠ s.audio → ∃ x, ins = .ldStVx x) ∧
    (t.wait ≠ s.wait → ∃ x, ins = .ldVxK x) ∧
    (t.halted ≠ s.halted → ins = .ret ∨ (∃ nnn, ins = .call nnn) ∨ (∃ x y n, ins = .drw x y n) ∨
      ∃ x, ins = .ldF x ∨ ins = .ldB x ∨ ins = .storeRegs x ∨ ins = .loadRegs x)

/-- spec/10_state.md R20, R21: no instruction changes a general register but its destinations and, where it writes a flag,
VF; a flag write leaves 0 or 1, unless the instruction faulted before it. -/
def Obligations.RegisterAndFlagWriters : Prop :=
  ∀ (ins : Instr) (s t : State), exec ins s = .next t →
    (∀ r, r ∉ ins.destinations → (r = vf → ins.writesFlag s.cfg = false) → t.getV r = s.getV r) ∧
    (ins.writesFlag s.cfg = true →
      t.getV vf = 0 ∨ t.getV vf = 1 ∨ t.halted ≠ none ∧ t.v = s.v)

/-- spec/10_state.md R27: the dirty tracking and what was returned to the host never influence anything else: two states
that differ only there take steps to states that differ only there, and stop alike. -/
def Obligations.DirtyTrackingIsNotObservable : Prop :=
  ∀ s t : State, s.sameView t →
    (∀ s', step s = .next s' → ∃ t', step t = .next t' ∧ s'.sameView t') ∧
    (∀ f, step s = .fault f → step t = .fault f) ∧ ∀ r, step s = .refused r → step t = .refused r

/-- spec/10_state.md R36 (g), spec/45_display.md R217 (the form of the tracking is decision D16, log 23): until `Present`
or `Reset`, a cell that a step changed lies in a marked row and, unless the step faulted, in a recorded rectangle, and
marks and rectangles are never lost. -/
def Obligations.DirtyTrackingNeverUnderReports : Prop :=
  ∀ s t : State, s.cfg.wf → s.display.wf s.cfg → (∀ rest, s.inbox ≠ .present :: rest) →
    (∀ rom rest, s.inbox ≠ .reset rom :: rest) → step s = .next t →
    ∀ c r, s.onScreen c r →
      (t.pixel c r ≠ s.pixel c r → t.marked r ∧ (t.halted = none → t.covered c r)) ∧
      (s.marked r → t.marked r) ∧ (s.covered c r → t.covered c r)

/-- spec/93_implementation_defined.md section 1 ("Nothing in the machine is stuck"): a step has a next state but in three
cases outside the host's contract, each with a name of the model's own (log 9, 10). -/
def Obligations.EveryLegalEventHasANextState : Prop :=
  ∀ s : State,
    (step s = .fault .runEnded ↔ s.ended = true ∧ ∀ rom rest, s.inbox ≠ .reset rom :: rest) ∧
    (step s = .refused .romTooLong ↔ ∃ rom rest, s.inbox = .reset rom :: rest ∧ 3584 < rom.length) ∧
    (step s = .refused .clockBackwards ↔ s.ended = false ∧ s.halted = none ∧ ∃ now rest, now < s.now ∧
      (s.inbox = .timerTick now :: rest ∨ ∃ rnd, s.inbox = .step now rnd :: rest)) ∧
    (step s = .fault .runEnded ∨ step s = .refused .romTooLong ∨ step s = .refused .clockBackwards ∨
      ∃ t, step s = .next t)

/-- spec/00_scope.md R5: no event changes the configuration; spec/44_timers.md R190: the clock never goes back (the field
`now` is the model's own, log 2). -/
def Obligations.ConfigurationIsFixedAndClockMonotone : Prop :=
  ∀ s t : State, step s = .next t → t.cfg = s.cfg ∧ s.now ≤ t.now
end

