-- ==== Sys2Proof/Laws/Memory.lean ====
section
/-!
SUPPORT. The laws of the memory: a read after a write, and that every memory operation keeps the canonical form.
-/

namespace Sys2Proof.Machine

theorem Memory.read_insert (font : List Byte) (c : Host.Cell) (m : List Host.Cell) (a : Nat)
    (h : ∀ d ∈ m, d.1 ≠ c.1) :
    Memory.read font (Memory.insert c m) a = if a = c.1 then c.2 else Memory.read font m a := by
  induction m with
  | nil => simp [Memory.insert, Memory.read]
  | cons d rest ih =>
    have hd := h d (by simp)
    have ih := ih fun e he => h e (by simp [he])
    unfold Memory.insert
    split
    · simp [Memory.read]
    · simp only [Memory.read, ih]
      split <;> split <;> simp_all

theorem Memory.read_filter (font : List Byte) (m : List Host.Cell) (a b : Nat) :
    Memory.read font (m.filter fun c => decide (c.1 ≠ b)) a =
      if a = b then Memory.resetByte font a else Memory.read font m a := by
  induction m with
  | nil => simp [Memory.read]
  | cons d rest ih =>
    by_cases hd : d.1 = b
    · rw [List.filter_cons_of_neg (by simp [hd]), ih]
      by_cases ha : a = b <;> simp [Memory.read, ha, hd]
    · rw [List.filter_cons_of_pos (by simp [hd])]
      simp only [Memory.read, ih]
      by_cases ha : a = b
      · subst ha; simp [Ne.symm hd]
      · simp [ha]

/-- A read after a write, whatever the memory: the byte written at its address, every other byte as before. -/
theorem Memory.read_write (font : List Byte) (m : List Host.Cell) (a b : Nat) (v : Byte) :
    Memory.read font (Memory.write font m b v) a = if a = b then v else Memory.read font m a := by
  unfold Memory.write
  dsimp only
  split
  · rw [Memory.read_filter]; split <;> simp_all
  · rw [Memory.read_insert _ _ _ _ (by simp), Memory.read_filter]; split <;> simp_all

/-- A byte after a store. -/
@[simp] theorem State.readByte_writeByte (s : State) (a b : Nat) (v : Byte) :
    (s.writeByte b v).readByte a = if a = b then v else s.readByte a :=
  Memory.read_write _ _ _ _ _

theorem Memory.mem_insert (c d : Host.Cell) (m : List Host.Cell) :
    d ∈ Memory.insert c m ↔ d = c ∨ d ∈ m := by
  induction m with
  | nil => simp [Memory.insert]
  | cons e rest ih => unfold Memory.insert; split <;> simp [ih]; tauto

theorem Memory.insert_rising (c : Host.Cell) (m : List Host.Cell)
    (hm : (m.map (·.1)).Pairwise (· < ·)) (hc : ∀ d ∈ m, d.1 ≠ c.1) :
    ((Memory.insert c m).map (·.1)).Pairwise (· < ·) := by
  induction m with
  | nil => simp [Memory.insert]
  | cons e rest ih =>
    rw [List.map_cons, List.pairwise_cons] at hm
    have hlt : ∀ d ∈ rest, e.1 < d.1 := fun d hd => hm.1 _ (List.mem_map_of_mem hd)
    have hne := hc e (by simp)
    unfold Memory.insert
    split
    · rename_i h
      rw [List.map_cons, List.pairwise_cons, List.map_cons, List.pairwise_cons]
      refine ⟨?_, hm⟩
      simp only [List.mem_cons, List.mem_map]
      rintro a (rfl | ⟨d, hd, rfl⟩)
      · exact h
      · exact h.trans (hlt d hd)
    · rw [List.map_cons, List.pairwise_cons]
      refine ⟨?_, ih hm.2 fun d hd => hc d (by simp [hd])⟩
      intro a ha
      obtain ⟨d, hd, rfl⟩ := List.mem_map.1 ha
      rcases (Memory.mem_insert c d rest).1 hd with rfl | hd
      · omega
      · exact hlt d hd

/-- A write inside the memory keeps the canonical form. -/
theorem Memory.write_wf (font : List Byte) (m : List Host.Cell) (a : Nat) (v : Byte)
    (h : Memory.wf font m) (ha : a < Config.memSize) : Memory.wf font (Memory.write font m a v) := by
  have hf : ((m.filter fun c => decide (c.1 ≠ a)).map (·.1)).Pairwise (· < ·) :=
    h.1.sublist (List.filter_sublist.map _)
  have hmem : ∀ c ∈ m.filter fun c => decide (c.1 ≠ a), c ∈ m ∧ c.1 ≠ a := by simp
  unfold Memory.write
  dsimp only
  split
  · exact ⟨hf, fun c hc => h.2 c (hmem c hc).1⟩
  · rename_i hv
    refine ⟨Memory.insert_rising _ _ hf fun d hd => (hmem d hd).2, fun c hc => ?_⟩
    rcases (Memory.mem_insert _ _ _).1 hc with rfl | hc
    · exact ⟨ha, hv⟩
    · exact h.2 c (hmem c hc).1

/-- A load inside the memory keeps the canonical form. -/
theorem Memory.load_wf (font : List Byte) (bytes : List Byte) (m : List Host.Cell) (a : Nat)
    (h : Memory.wf font m) (ha : a + bytes.length ≤ Config.memSize) :
    Memory.wf font (Memory.load font m a bytes) := by
  induction bytes generalizing m a with
  | nil => exact h
  | cons b rest ih =>
    simp only [List.length_cons] at ha
    exact ih _ _ (Memory.write_wf font m a b h (by omega)) (by omega)

/-- The memory of the reset state lists nothing and is canonical. -/
theorem State.reset_memory_wf : Memory.wf State.reset.cfg.font State.reset.mem := by
  simp [State.reset, State.fresh, Memory.wf]

/-- A checked read: the byte and the same state, or `AddressBounds` raised. -/
theorem State.memRead_cases (s : State) (a : Nat) :
    (a ≤ 0xFFF ∧ s.memRead a = .done (s.readByte a) s) ∨
    (0xFFF < a ∧ s.memRead a = .raised (s.raise (.addressBounds a))) := by
  unfold State.memRead; split <;> simp <;> omega

/-- A checked write: the byte stored, or `AddressBounds` raised and nothing stored. -/
theorem State.memWrite_cases (s : State) (a : Nat) (b : Byte) :
    (a ≤ 0xFFF ∧ s.memWrite a b = .done () (s.writeByte a b)) ∨
    (0xFFF < a ∧ s.memWrite a b = .raised (s.raise (.addressBounds a))) := by
  unfold State.memWrite; split <;> simp <;> omega

/-- A fetch: the word at `PC` and the same state, or `AddressBounds` raised. -/
theorem State.fetch_cases (s : State) :
    (0x200 ≤ s.pc.toNat ∧ s.pc.toNat ≤ 0xFFE ∧
      s.fetch = .done (joinBytes (s.readByte s.pc.toNat) (s.readByte (s.pc.toNat + 1))) s) ∨
    ((s.pc.toNat < 0x200 ∨ 0xFFE < s.pc.toNat) ∧ s.fetch = .raised (s.raise (.addressBounds s.pc.toNat))) := by
  unfold State.fetch; split <;> rename_i h <;> simp only [Config.progBase] at h <;> simp <;> omega

end Sys2Proof.Machine
end

