-- ==== Sys2Proof/Laws/State.lean ====
section
/-!
SUPPORT. One lemma for each field of State under each named update, so that no proof unfolds an update.
-/

namespace Sys2Proof.Machine

/-! ### `setV` -/

@[simp] theorem State.setV_v (s : State) (x : Reg) (b : Byte) : (s.setV x b).v = s.v.set x.val b x.isLt := rfl
@[simp] theorem State.setV_i (s : State) (x : Reg) (b : Byte) : (s.setV x b).i = s.i := rfl
@[simp] theorem State.setV_pc (s : State) (x : Reg) (b : Byte) : (s.setV x b).pc = s.pc := rfl
@[simp] theorem State.setV_stack (s : State) (x : Reg) (b : Byte) : (s.setV x b).stack = s.stack := rfl
@[simp] theorem State.setV_dt (s : State) (x : Reg) (b : Byte) : (s.setV x b).dt = s.dt := rfl
@[simp] theorem State.setV_st (s : State) (x : Reg) (b : Byte) : (s.setV x b).st = s.st := rfl
@[simp] theorem State.setV_display (s : State) (x : Reg) (b : Byte) : (s.setV x b).display = s.display := rfl
@[simp] theorem State.setV_keys (s : State) (x : Reg) (b : Byte) : (s.setV x b).keys = s.keys := rfl
@[simp] theorem State.setV_wait (s : State) (x : Reg) (b : Byte) : (s.setV x b).wait = s.wait := rfl
@[simp] theorem State.setV_halted (s : State) (x : Reg) (b : Byte) : (s.setV x b).halted = s.halted := rfl
@[simp] theorem State.setV_mem (s : State) (x : Reg) (b : Byte) : (s.setV x b).mem = s.mem := rfl
@[simp] theorem State.setV_audio (s : State) (x : Reg) (b : Byte) : (s.setV x b).audio = s.audio := rfl
@[simp] theorem State.setV_cfg (s : State) (x : Reg) (b : Byte) : (s.setV x b).cfg = s.cfg := rfl
@[simp] theorem State.setV_inbox (s : State) (x : Reg) (b : Byte) : (s.setV x b).inbox = s.inbox := rfl
@[simp] theorem State.setV_now (s : State) (x : Reg) (b : Byte) : (s.setV x b).now = s.now := rfl
@[simp] theorem State.setV_stepRnd (s : State) (x : Reg) (b : Byte) : (s.setV x b).stepRnd = s.stepRnd := rfl
@[simp] theorem State.setV_draws (s : State) (x : Reg) (b : Byte) : (s.setV x b).draws = s.draws := rfl
@[simp] theorem State.setV_replies (s : State) (x : Reg) (b : Byte) : (s.setV x b).replies = s.replies := rfl
@[simp] theorem State.setV_ended (s : State) (x : Reg) (b : Byte) : (s.setV x b).ended = s.ended := rfl

/-! ### `setI` -/

@[simp] theorem State.setI_v (s : State) (w : Word) : (s.setI w).v = s.v := rfl
@[simp] theorem State.setI_i (s : State) (w : Word) : (s.setI w).i = w := rfl
@[simp] theorem State.setI_pc (s : State) (w : Word) : (s.setI w).pc = s.pc := rfl
@[simp] theorem State.setI_stack (s : State) (w : Word) : (s.setI w).stack = s.stack := rfl
@[simp] theorem State.setI_dt (s : State) (w : Word) : (s.setI w).dt = s.dt := rfl
@[simp] theorem State.setI_st (s : State) (w : Word) : (s.setI w).st = s.st := rfl
@[simp] theorem State.setI_display (s : State) (w : Word) : (s.setI w).display = s.display := rfl
@[simp] theorem State.setI_keys (s : State) (w : Word) : (s.setI w).keys = s.keys := rfl
@[simp] theorem State.setI_wait (s : State) (w : Word) : (s.setI w).wait = s.wait := rfl
@[simp] theorem State.setI_halted (s : State) (w : Word) : (s.setI w).halted = s.halted := rfl
@[simp] theorem State.setI_mem (s : State) (w : Word) : (s.setI w).mem = s.mem := rfl
@[simp] theorem State.setI_audio (s : State) (w : Word) : (s.setI w).audio = s.audio := rfl
@[simp] theorem State.setI_cfg (s : State) (w : Word) : (s.setI w).cfg = s.cfg := rfl
@[simp] theorem State.setI_inbox (s : State) (w : Word) : (s.setI w).inbox = s.inbox := rfl
@[simp] theorem State.setI_now (s : State) (w : Word) : (s.setI w).now = s.now := rfl
@[simp] theorem State.setI_stepRnd (s : State) (w : Word) : (s.setI w).stepRnd = s.stepRnd := rfl
@[simp] theorem State.setI_draws (s : State) (w : Word) : (s.setI w).draws = s.draws := rfl
@[simp] theorem State.setI_replies (s : State) (w : Word) : (s.setI w).replies = s.replies := rfl
@[simp] theorem State.setI_ended (s : State) (w : Word) : (s.setI w).ended = s.ended := rfl

/-! ### `setPc` -/

@[simp] theorem State.setPc_v (s : State) (w : Word) : (s.setPc w).v = s.v := rfl
@[simp] theorem State.setPc_i (s : State) (w : Word) : (s.setPc w).i = s.i := rfl
@[simp] theorem State.setPc_pc (s : State) (w : Word) : (s.setPc w).pc = w := rfl
@[simp] theorem State.setPc_stack (s : State) (w : Word) : (s.setPc w).stack = s.stack := rfl
@[simp] theorem State.setPc_dt (s : State) (w : Word) : (s.setPc w).dt = s.dt := rfl
@[simp] theorem State.setPc_st (s : State) (w : Word) : (s.setPc w).st = s.st := rfl
@[simp] theorem State.setPc_display (s : State) (w : Word) : (s.setPc w).display = s.display := rfl
@[simp] theorem State.setPc_keys (s : State) (w : Word) : (s.setPc w).keys = s.keys := rfl
@[simp] theorem State.setPc_wait (s : State) (w : Word) : (s.setPc w).wait = s.wait := rfl
@[simp] theorem State.setPc_halted (s : State) (w : Word) : (s.setPc w).halted = s.halted := rfl
@[simp] theorem State.setPc_mem (s : State) (w : Word) : (s.setPc w).mem = s.mem := rfl
@[simp] theorem State.setPc_audio (s : State) (w : Word) : (s.setPc w).audio = s.audio := rfl
@[simp] theorem State.setPc_cfg (s : State) (w : Word) : (s.setPc w).cfg = s.cfg := rfl
@[simp] theorem State.setPc_inbox (s : State) (w : Word) : (s.setPc w).inbox = s.inbox := rfl
@[simp] theorem State.setPc_now (s : State) (w : Word) : (s.setPc w).now = s.now := rfl
@[simp] theorem State.setPc_stepRnd (s : State) (w : Word) : (s.setPc w).stepRnd = s.stepRnd := rfl
@[simp] theorem State.setPc_draws (s : State) (w : Word) : (s.setPc w).draws = s.draws := rfl
@[simp] theorem State.setPc_replies (s : State) (w : Word) : (s.setPc w).replies = s.replies := rfl
@[simp] theorem State.setPc_ended (s : State) (w : Word) : (s.setPc w).ended = s.ended := rfl

/-! ### `advance` -/

@[simp] theorem State.advance_v (s : State) : (s.advance).v = s.v := rfl
@[simp] theorem State.advance_i (s : State) : (s.advance).i = s.i := rfl
@[simp] theorem State.advance_pc (s : State) : (s.advance).pc = s.pc + 2 := rfl
@[simp] theorem State.advance_stack (s : State) : (s.advance).stack = s.stack := rfl
@[simp] theorem State.advance_dt (s : State) : (s.advance).dt = s.dt := rfl
@[simp] theorem State.advance_st (s : State) : (s.advance).st = s.st := rfl
@[simp] theorem State.advance_display (s : State) : (s.advance).display = s.display := rfl
@[simp] theorem State.advance_keys (s : State) : (s.advance).keys = s.keys := rfl
@[simp] theorem State.advance_wait (s : State) : (s.advance).wait = s.wait := rfl
@[simp] theorem State.advance_halted (s : State) : (s.advance).halted = s.halted := rfl
@[simp] theorem State.advance_mem (s : State) : (s.advance).mem = s.mem := rfl
@[simp] theorem State.advance_audio (s : State) : (s.advance).audio = s.audio := rfl
@[simp] theorem State.advance_cfg (s : State) : (s.advance).cfg = s.cfg := rfl
@[simp] theorem State.advance_inbox (s : State) : (s.advance).inbox = s.inbox := rfl
@[simp] theorem State.advance_now (s : State) : (s.advance).now = s.now := rfl
@[simp] theorem State.advance_stepRnd (s : State) : (s.advance).stepRnd = s.stepRnd := rfl
@[simp] theorem State.advance_draws (s : State) : (s.advance).draws = s.draws := rfl
@[simp] theorem State.advance_replies (s : State) : (s.advance).replies = s.replies := rfl
@[simp] theorem State.advance_ended (s : State) : (s.advance).ended = s.ended := rfl

/-! ### `skipIf` -/

@[simp] theorem State.skipIf_v (s : State) (c : Bool) : (s.skipIf c).v = s.v := rfl
@[simp] theorem State.skipIf_i (s : State) (c : Bool) : (s.skipIf c).i = s.i := rfl
@[simp] theorem State.skipIf_pc (s : State) (c : Bool) : (s.skipIf c).pc = if c then s.pc + 4 else s.pc + 2 := rfl
@[simp] theorem State.skipIf_stack (s : State) (c : Bool) : (s.skipIf c).stack = s.stack := rfl
@[simp] theorem State.skipIf_dt (s : State) (c : Bool) : (s.skipIf c).dt = s.dt := rfl
@[simp] theorem State.skipIf_st (s : State) (c : Bool) : (s.skipIf c).st = s.st := rfl
@[simp] theorem State.skipIf_display (s : State) (c : Bool) : (s.skipIf c).display = s.display := rfl
@[simp] theorem State.skipIf_keys (s : State) (c : Bool) : (s.skipIf c).keys = s.keys := rfl
@[simp] theorem State.skipIf_wait (s : State) (c : Bool) : (s.skipIf c).wait = s.wait := rfl
@[simp] theorem State.skipIf_halted (s : State) (c : Bool) : (s.skipIf c).halted = s.halted := rfl
@[simp] theorem State.skipIf_mem (s : State) (c : Bool) : (s.skipIf c).mem = s.mem := rfl
@[simp] theorem State.skipIf_audio (s : State) (c : Bool) : (s.skipIf c).audio = s.audio := rfl
@[simp] theorem State.skipIf_cfg (s : State) (c : Bool) : (s.skipIf c).cfg = s.cfg := rfl
@[simp] theorem State.skipIf_inbox (s : State) (c : Bool) : (s.skipIf c).inbox = s.inbox := rfl
@[simp] theorem State.skipIf_now (s : State) (c : Bool) : (s.skipIf c).now = s.now := rfl
@[simp] theorem State.skipIf_stepRnd (s : State) (c : Bool) : (s.skipIf c).stepRnd = s.stepRnd := rfl
@[simp] theorem State.skipIf_draws (s : State) (c : Bool) : (s.skipIf c).draws = s.draws := rfl
@[simp] theorem State.skipIf_replies (s : State) (c : Bool) : (s.skipIf c).replies = s.replies := rfl
@[simp] theorem State.skipIf_ended (s : State) (c : Bool) : (s.skipIf c).ended = s.ended := rfl

/-! ### `push` -/

@[simp] theorem State.push_v (s : State) (w : Word) : (s.push w).v = s.v := rfl
@[simp] theorem State.push_i (s : State) (w : Word) : (s.push w).i = s.i := rfl
@[simp] theorem State.push_pc (s : State) (w : Word) : (s.push w).pc = s.pc := rfl
@[simp] theorem State.push_stack (s : State) (w : Word) : (s.push w).stack = w :: s.stack := rfl
@[simp] theorem State.push_dt (s : State) (w : Word) : (s.push w).dt = s.dt := rfl
@[simp] theorem State.push_st (s : State) (w : Word) : (s.push w).st = s.st := rfl
@[simp] theorem State.push_display (s : State) (w : Word) : (s.push w).display = s.display := rfl
@[simp] theorem State.push_keys (s : State) (w : Word) : (s.push w).keys = s.keys := rfl
@[simp] theorem State.push_wait (s : State) (w : Word) : (s.push w).wait = s.wait := rfl
@[simp] theorem State.push_halted (s : State) (w : Word) : (s.push w).halted = s.halted := rfl
@[simp] theorem State.push_mem (s : State) (w : Word) : (s.push w).mem = s.mem := rfl
@[simp] theorem State.push_audio (s : State) (w : Word) : (s.push w).audio = s.audio := rfl
@[simp] theorem State.push_cfg (s : State) (w : Word) : (s.push w).cfg = s.cfg := rfl
@[simp] theorem State.push_inbox (s : State) (w : Word) : (s.push w).inbox = s.inbox := rfl
@[simp] theorem State.push_now (s : State) (w : Word) : (s.push w).now = s.now := rfl
@[simp] theorem State.push_stepRnd (s : State) (w : Word) : (s.push w).stepRnd = s.stepRnd := rfl
@[simp] theorem State.push_draws (s : State) (w : Word) : (s.push w).draws = s.draws := rfl
@[simp] theorem State.push_replies (s : State) (w : Word) : (s.push w).replies = s.replies := rfl
@[simp] theorem State.push_ended (s : State) (w : Word) : (s.push w).ended = s.ended := rfl

/-! ### `raise` -/

@[simp] theorem State.raise_v (s : State) (f : FaultRecord) : (s.raise f).v = s.v := rfl
@[simp] theorem State.raise_i (s : State) (f : FaultRecord) : (s.raise f).i = s.i := rfl
@[simp] theorem State.raise_pc (s : State) (f : FaultRecord) : (s.raise f).pc = s.pc := rfl
@[simp] theorem State.raise_stack (s : State) (f : FaultRecord) : (s.raise f).stack = s.stack := rfl
@[simp] theorem State.raise_dt (s : State) (f : FaultRecord) : (s.raise f).dt = s.dt := rfl
@[simp] theorem State.raise_st (s : State) (f : FaultRecord) : (s.raise f).st = s.st := rfl
@[simp] theorem State.raise_display (s : State) (f : FaultRecord) : (s.raise f).display = s.display := rfl
@[simp] theorem State.raise_keys (s : State) (f : FaultRecord) : (s.raise f).keys = s.keys := rfl
@[simp] theorem State.raise_wait (s : State) (f : FaultRecord) : (s.raise f).wait = s.wait := rfl
@[simp] theorem State.raise_halted (s : State) (f : FaultRecord) : (s.raise f).halted = some f := rfl
@[simp] theorem State.raise_mem (s : State) (f : FaultRecord) : (s.raise f).mem = s.mem := rfl
@[simp] theorem State.raise_audio (s : State) (f : FaultRecord) : (s.raise f).audio = s.audio := rfl
@[simp] theorem State.raise_cfg (s : State) (f : FaultRecord) : (s.raise f).cfg = s.cfg := rfl
@[simp] theorem State.raise_inbox (s : State) (f : FaultRecord) : (s.raise f).inbox = s.inbox := rfl
@[simp] theorem State.raise_now (s : State) (f : FaultRecord) : (s.raise f).now = s.now := rfl
@[simp] theorem State.raise_stepRnd (s : State) (f : FaultRecord) : (s.raise f).stepRnd = s.stepRnd := rfl
@[simp] theorem State.raise_draws (s : State) (f : FaultRecord) : (s.raise f).draws = s.draws := rfl
@[simp] theorem State.raise_replies (s : State) (f : FaultRecord) : (s.raise f).replies = s.replies := rfl
@[simp] theorem State.raise_ended (s : State) (f : FaultRecord) : (s.raise f).ended = s.ended := rfl

/-! ### `writeByte` -/

@[simp] theorem State.writeByte_v (s : State) (a : Nat) (b : Byte) : (s.writeByte a b).v = s.v := rfl
@[simp] theorem State.writeByte_i (s : State) (a : Nat) (b : Byte) : (s.writeByte a b).i = s.i := rfl
@[simp] theorem State.writeByte_pc (s : State) (a : Nat) (b : Byte) : (s.writeByte a b).pc = s.pc := rfl
@[simp] theorem State.writeByte_stack (s : State) (a : Nat) (b : Byte) : (s.writeByte a b).stack = s.stack := rfl
@[simp] theorem State.writeByte_dt (s : State) (a : Nat) (b : Byte) : (s.writeByte a b).dt = s.dt := rfl
@[simp] theorem State.writeByte_st (s : State) (a : Nat) (b : Byte) : (s.writeByte a b).st = s.st := rfl
@[simp] theorem State.writeByte_display (s : State) (a : Nat) (b : Byte) : (s.writeByte a b).display = s.display := rfl
@[simp] theorem State.writeByte_keys (s : State) (a : Nat) (b : Byte) : (s.writeByte a b).keys = s.keys := rfl
@[simp] theorem State.writeByte_wait (s : State) (a : Nat) (b : Byte) : (s.writeByte a b).wait = s.wait := rfl
@[simp] theorem State.writeByte_halted (s : State) (a : Nat) (b : Byte) : (s.writeByte a b).halted = s.halted := rfl
@[simp] theorem State.writeByte_mem (s : State) (a : Nat) (b : Byte) : (s.writeByte a b).mem = Memory.write s.cfg.font s.mem a b := rfl
@[simp] theorem State.writeByte_audio (s : State) (a : Nat) (b : Byte) : (s.writeByte a b).audio = s.audio := rfl
@[simp] theorem State.writeByte_cfg (s : State) (a : Nat) (b : Byte) : (s.writeByte a b).cfg = s.cfg := rfl
@[simp] theorem State.writeByte_inbox (s : State) (a : Nat) (b : Byte) : (s.writeByte a b).inbox = s.inbox := rfl
@[simp] theorem State.writeByte_now (s : State) (a : Nat) (b : Byte) : (s.writeByte a b).now = s.now := rfl
@[simp] theorem State.writeByte_stepRnd (s : State) (a : Nat) (b : Byte) : (s.writeByte a b).stepRnd = s.stepRnd := rfl
@[simp] theorem State.writeByte_draws (s : State) (a : Nat) (b : Byte) : (s.writeByte a b).draws = s.draws := rfl
@[simp] theorem State.writeByte_replies (s : State) (a : Nat) (b : Byte) : (s.writeByte a b).replies = s.replies := rfl
@[simp] theorem State.writeByte_ended (s : State) (a : Nat) (b : Byte) : (s.writeByte a b).ended = s.ended := rfl

/-! ### `takeClock` -/

@[simp] theorem State.takeClock_v (s : State) : (s.takeClock).v = s.v := rfl
@[simp] theorem State.takeClock_i (s : State) : (s.takeClock).i = s.i := rfl
@[simp] theorem State.takeClock_pc (s : State) : (s.takeClock).pc = s.pc := rfl
@[simp] theorem State.takeClock_stack (s : State) : (s.takeClock).stack = s.stack := rfl
@[simp] theorem State.takeClock_dt (s : State) : (s.takeClock).dt = s.dt := rfl
@[simp] theorem State.takeClock_st (s : State) : (s.takeClock).st = s.st := rfl
@[simp] theorem State.takeClock_display (s : State) : (s.takeClock).display = s.display := rfl
@[simp] theorem State.takeClock_keys (s : State) : (s.takeClock).keys = s.keys := rfl
@[simp] theorem State.takeClock_wait (s : State) : (s.takeClock).wait = s.wait := rfl
@[simp] theorem State.takeClock_halted (s : State) : (s.takeClock).halted = s.halted := rfl
@[simp] theorem State.takeClock_mem (s : State) : (s.takeClock).mem = s.mem := rfl
@[simp] theorem State.takeClock_audio (s : State) : (s.takeClock).audio = s.audio := rfl
@[simp] theorem State.takeClock_cfg (s : State) : (s.takeClock).cfg = s.cfg := rfl
@[simp] theorem State.takeClock_inbox (s : State) : (s.takeClock).inbox = s.inbox := rfl
@[simp] theorem State.takeClock_now (s : State) : (s.takeClock).now = s.clockReading := rfl
@[simp] theorem State.takeClock_stepRnd (s : State) : (s.takeClock).stepRnd = s.stepRnd := rfl
@[simp] theorem State.takeClock_draws (s : State) : (s.takeClock).draws = s.draws + 1 := rfl
@[simp] theorem State.takeClock_replies (s : State) : (s.takeClock).replies = s.replies := rfl
@[simp] theorem State.takeClock_ended (s : State) : (s.takeClock).ended = s.ended := rfl

/-! ### `takeDraw` -/

@[simp] theorem State.takeDraw_v (s : State) : (s.takeDraw).v = s.v := rfl
@[simp] theorem State.takeDraw_i (s : State) : (s.takeDraw).i = s.i := rfl
@[simp] theorem State.takeDraw_pc (s : State) : (s.takeDraw).pc = s.pc := rfl
@[simp] theorem State.takeDraw_stack (s : State) : (s.takeDraw).stack = s.stack := rfl
@[simp] theorem State.takeDraw_dt (s : State) : (s.takeDraw).dt = s.dt := rfl
@[simp] theorem State.takeDraw_st (s : State) : (s.takeDraw).st = s.st := rfl
@[simp] theorem State.takeDraw_display (s : State) : (s.takeDraw).display = s.display := rfl
@[simp] theorem State.takeDraw_keys (s : State) : (s.takeDraw).keys = s.keys := rfl
@[simp] theorem State.takeDraw_wait (s : State) : (s.takeDraw).wait = s.wait := rfl
@[simp] theorem State.takeDraw_halted (s : State) : (s.takeDraw).halted = s.halted := rfl
@[simp] theorem State.takeDraw_mem (s : State) : (s.takeDraw).mem = s.mem := rfl
@[simp] theorem State.takeDraw_audio (s : State) : (s.takeDraw).audio = s.audio := rfl
@[simp] theorem State.takeDraw_cfg (s : State) : (s.takeDraw).cfg = s.cfg := rfl
@[simp] theorem State.takeDraw_inbox (s : State) : (s.takeDraw).inbox = s.inbox := rfl
@[simp] theorem State.takeDraw_now (s : State) : (s.takeDraw).now = s.now := rfl
@[simp] theorem State.takeDraw_stepRnd (s : State) : (s.takeDraw).stepRnd = s.stepRnd := rfl
@[simp] theorem State.takeDraw_draws (s : State) : (s.takeDraw).draws = s.draws + 1 := rfl
@[simp] theorem State.takeDraw_replies (s : State) : (s.takeDraw).replies = s.replies := rfl
@[simp] theorem State.takeDraw_ended (s : State) : (s.takeDraw).ended = s.ended := rfl

/-! ### `setDataThenFlag` -/

@[simp] theorem State.setDataThenFlag_v (s : State) (x : Reg) (d f : Byte) : (s.setDataThenFlag x d f).v = ((s.setV x d).setV vf f).v := rfl
@[simp] theorem State.setDataThenFlag_i (s : State) (x : Reg) (d f : Byte) : (s.setDataThenFlag x d f).i = s.i := rfl
@[simp] theorem State.setDataThenFlag_pc (s : State) (x : Reg) (d f : Byte) : (s.setDataThenFlag x d f).pc = s.pc := rfl
@[simp] theorem State.setDataThenFlag_stack (s : State) (x : Reg) (d f : Byte) : (s.setDataThenFlag x d f).stack = s.stack := rfl
@[simp] theorem State.setDataThenFlag_dt (s : State) (x : Reg) (d f : Byte) : (s.setDataThenFlag x d f).dt = s.dt := rfl
@[simp] theorem State.setDataThenFlag_st (s : State) (x : Reg) (d f : Byte) : (s.setDataThenFlag x d f).st = s.st := rfl
@[simp] theorem State.setDataThenFlag_display (s : State) (x : Reg) (d f : Byte) : (s.setDataThenFlag x d f).display = s.display := rfl
@[simp] theorem State.setDataThenFlag_keys (s : State) (x : Reg) (d f : Byte) : (s.setDataThenFlag x d f).keys = s.keys := rfl
@[simp] theorem State.setDataThenFlag_wait (s : State) (x : Reg) (d f : Byte) : (s.setDataThenFlag x d f).wait = s.wait := rfl
@[simp] theorem State.setDataThenFlag_halted (s : State) (x : Reg) (d f : Byte) : (s.setDataThenFlag x d f).halted = s.halted := rfl
@[simp] theorem State.setDataThenFlag_mem (s : State) (x : Reg) (d f : Byte) : (s.setDataThenFlag x d f).mem = s.mem := rfl
@[simp] theorem State.setDataThenFlag_audio (s : State) (x : Reg) (d f : Byte) : (s.setDataThenFlag x d f).audio = s.audio := rfl
@[simp] theorem State.setDataThenFlag_cfg (s : State) (x : Reg) (d f : Byte) : (s.setDataThenFlag x d f).cfg = s.cfg := rfl
@[simp] theorem State.setDataThenFlag_inbox (s : State) (x : Reg) (d f : Byte) : (s.setDataThenFlag x d f).inbox = s.inbox := rfl
@[simp] theorem State.setDataThenFlag_now (s : State) (x : Reg) (d f : Byte) : (s.setDataThenFlag x d f).now = s.now := rfl
@[simp] theorem State.setDataThenFlag_stepRnd (s : State) (x : Reg) (d f : Byte) : (s.setDataThenFlag x d f).stepRnd = s.stepRnd := rfl
@[simp] theorem State.setDataThenFlag_draws (s : State) (x : Reg) (d f : Byte) : (s.setDataThenFlag x d f).draws = s.draws := rfl
@[simp] theorem State.setDataThenFlag_replies (s : State) (x : Reg) (d f : Byte) : (s.setDataThenFlag x d f).replies = s.replies := rfl
@[simp] theorem State.setDataThenFlag_ended (s : State) (x : Reg) (d f : Byte) : (s.setDataThenFlag x d f).ended = s.ended := rfl

/-! ### `setLogic` -/

@[simp] theorem State.setLogic_v (s : State) (x : Reg) (d : Byte) : (s.setLogic x d).v = if s.cfg.quirkLogicVf0 then ((s.setV x d).setV vf 0).v else (s.setV x d).v := rfl
@[simp] theorem State.setLogic_i (s : State) (x : Reg) (d : Byte) : (s.setLogic x d).i = s.i := rfl
@[simp] theorem State.setLogic_pc (s : State) (x : Reg) (d : Byte) : (s.setLogic x d).pc = s.pc := rfl
@[simp] theorem State.setLogic_stack (s : State) (x : Reg) (d : Byte) : (s.setLogic x d).stack = s.stack := rfl
@[simp] theorem State.setLogic_dt (s : State) (x : Reg) (d : Byte) : (s.setLogic x d).dt = s.dt := rfl
@[simp] theorem State.setLogic_st (s : State) (x : Reg) (d : Byte) : (s.setLogic x d).st = s.st := rfl
@[simp] theorem State.setLogic_display (s : State) (x : Reg) (d : Byte) : (s.setLogic x d).display = s.display := rfl
@[simp] theorem State.setLogic_keys (s : State) (x : Reg) (d : Byte) : (s.setLogic x d).keys = s.keys := rfl
@[simp] theorem State.setLogic_wait (s : State) (x : Reg) (d : Byte) : (s.setLogic x d).wait = s.wait := rfl
@[simp] theorem State.setLogic_halted (s : State) (x : Reg) (d : Byte) : (s.setLogic x d).halted = s.halted := rfl
@[simp] theorem State.setLogic_mem (s : State) (x : Reg) (d : Byte) : (s.setLogic x d).mem = s.mem := rfl
@[simp] theorem State.setLogic_audio (s : State) (x : Reg) (d : Byte) : (s.setLogic x d).audio = s.audio := rfl
@[simp] theorem State.setLogic_cfg (s : State) (x : Reg) (d : Byte) : (s.setLogic x d).cfg = s.cfg := rfl
@[simp] theorem State.setLogic_inbox (s : State) (x : Reg) (d : Byte) : (s.setLogic x d).inbox = s.inbox := rfl
@[simp] theorem State.setLogic_now (s : State) (x : Reg) (d : Byte) : (s.setLogic x d).now = s.now := rfl
@[simp] theorem State.setLogic_stepRnd (s : State) (x : Reg) (d : Byte) : (s.setLogic x d).stepRnd = s.stepRnd := rfl
@[simp] theorem State.setLogic_draws (s : State) (x : Reg) (d : Byte) : (s.setLogic x d).draws = s.draws := rfl
@[simp] theorem State.setLogic_replies (s : State) (x : Reg) (d : Byte) : (s.setLogic x d).replies = s.replies := rfl
@[simp] theorem State.setLogic_ended (s : State) (x : Reg) (d : Byte) : (s.setLogic x d).ended = s.ended := rfl

/-! ### `settleI` -/

@[simp] theorem State.settleI_v (s : State) (w : Word) : (s.settleI w).v = s.v := rfl
@[simp] theorem State.settleI_i (s : State) (w : Word) : (s.settleI w).i = if s.cfg.quirkIncI then s.i else w := rfl
@[simp] theorem State.settleI_pc (s : State) (w : Word) : (s.settleI w).pc = s.pc := rfl
@[simp] theorem State.settleI_stack (s : State) (w : Word) : (s.settleI w).stack = s.stack := rfl
@[simp] theorem State.settleI_dt (s : State) (w : Word) : (s.settleI w).dt = s.dt := rfl
@[simp] theorem State.settleI_st (s : State) (w : Word) : (s.settleI w).st = s.st := rfl
@[simp] theorem State.settleI_display (s : State) (w : Word) : (s.settleI w).display = s.display := rfl
@[simp] theorem State.settleI_keys (s : State) (w : Word) : (s.settleI w).keys = s.keys := rfl
@[simp] theorem State.settleI_wait (s : State) (w : Word) : (s.settleI w).wait = s.wait := rfl
@[simp] theorem State.settleI_halted (s : State) (w : Word) : (s.settleI w).halted = s.halted := rfl
@[simp] theorem State.settleI_mem (s : State) (w : Word) : (s.settleI w).mem = s.mem := rfl
@[simp] theorem State.settleI_audio (s : State) (w : Word) : (s.settleI w).audio = s.audio := rfl
@[simp] theorem State.settleI_cfg (s : State) (w : Word) : (s.settleI w).cfg = s.cfg := rfl
@[simp] theorem State.settleI_inbox (s : State) (w : Word) : (s.settleI w).inbox = s.inbox := rfl
@[simp] theorem State.settleI_now (s : State) (w : Word) : (s.settleI w).now = s.now := rfl
@[simp] theorem State.settleI_stepRnd (s : State) (w : Word) : (s.settleI w).stepRnd = s.stepRnd := rfl
@[simp] theorem State.settleI_draws (s : State) (w : Word) : (s.settleI w).draws = s.draws := rfl
@[simp] theorem State.settleI_replies (s : State) (w : Word) : (s.settleI w).replies = s.replies := rfl
@[simp] theorem State.settleI_ended (s : State) (w : Word) : (s.settleI w).ended = s.ended := rfl

/-! ### `recordRect` -/

@[simp] theorem State.recordRect_v (s : State) (x0 y0 n : Nat) : (s.recordRect x0 y0 n).v = s.v := rfl
@[simp] theorem State.recordRect_i (s : State) (x0 y0 n : Nat) : (s.recordRect x0 y0 n).i = s.i := rfl
@[simp] theorem State.recordRect_pc (s : State) (x0 y0 n : Nat) : (s.recordRect x0 y0 n).pc = s.pc := rfl
@[simp] theorem State.recordRect_stack (s : State) (x0 y0 n : Nat) : (s.recordRect x0 y0 n).stack = s.stack := rfl
@[simp] theorem State.recordRect_dt (s : State) (x0 y0 n : Nat) : (s.recordRect x0 y0 n).dt = s.dt := rfl
@[simp] theorem State.recordRect_st (s : State) (x0 y0 n : Nat) : (s.recordRect x0 y0 n).st = s.st := rfl
@[simp] theorem State.recordRect_keys (s : State) (x0 y0 n : Nat) : (s.recordRect x0 y0 n).keys = s.keys := rfl
@[simp] theorem State.recordRect_wait (s : State) (x0 y0 n : Nat) : (s.recordRect x0 y0 n).wait = s.wait := rfl
@[simp] theorem State.recordRect_halted (s : State) (x0 y0 n : Nat) : (s.recordRect x0 y0 n).halted = s.halted := rfl
@[simp] theorem State.recordRect_mem (s : State) (x0 y0 n : Nat) : (s.recordRect x0 y0 n).mem = s.mem := rfl
@[simp] theorem State.recordRect_audio (s : State) (x0 y0 n : Nat) : (s.recordRect x0 y0 n).audio = s.audio := rfl
@[simp] theorem State.recordRect_cfg (s : State) (x0 y0 n : Nat) : (s.recordRect x0 y0 n).cfg = s.cfg := rfl
@[simp] theorem State.recordRect_inbox (s : State) (x0 y0 n : Nat) : (s.recordRect x0 y0 n).inbox = s.inbox := rfl
@[simp] theorem State.recordRect_now (s : State) (x0 y0 n : Nat) : (s.recordRect x0 y0 n).now = s.now := rfl
@[simp] theorem State.recordRect_stepRnd (s : State) (x0 y0 n : Nat) : (s.recordRect x0 y0 n).stepRnd = s.stepRnd := rfl
@[simp] theorem State.recordRect_draws (s : State) (x0 y0 n : Nat) : (s.recordRect x0 y0 n).draws = s.draws := rfl
@[simp] theorem State.recordRect_replies (s : State) (x0 y0 n : Nat) : (s.recordRect x0 y0 n).replies = s.replies := rfl
@[simp] theorem State.recordRect_ended (s : State) (x0 y0 n : Nat) : (s.recordRect x0 y0 n).ended = s.ended := rfl

/-! ### `drawRow` -/

@[simp] theorem State.drawRow_v (s : State) (x0 y : Nat) (b : Byte) : (s.drawRow x0 y b).1.v = s.v := rfl
@[simp] theorem State.drawRow_i (s : State) (x0 y : Nat) (b : Byte) : (s.drawRow x0 y b).1.i = s.i := rfl
@[simp] theorem State.drawRow_pc (s : State) (x0 y : Nat) (b : Byte) : (s.drawRow x0 y b).1.pc = s.pc := rfl
@[simp] theorem State.drawRow_stack (s : State) (x0 y : Nat) (b : Byte) : (s.drawRow x0 y b).1.stack = s.stack := rfl
@[simp] theorem State.drawRow_dt (s : State) (x0 y : Nat) (b : Byte) : (s.drawRow x0 y b).1.dt = s.dt := rfl
@[simp] theorem State.drawRow_st (s : State) (x0 y : Nat) (b : Byte) : (s.drawRow x0 y b).1.st = s.st := rfl
@[simp] theorem State.drawRow_display (s : State) (x0 y : Nat) (b : Byte) : (s.drawRow x0 y b).1.display = (s.display.composite s.cfg.displayW s.cfg.displayH x0 y b).1 := rfl
@[simp] theorem State.drawRow_keys (s : State) (x0 y : Nat) (b : Byte) : (s.drawRow x0 y b).1.keys = s.keys := rfl
@[simp] theorem State.drawRow_wait (s : State) (x0 y : Nat) (b : Byte) : (s.drawRow x0 y b).1.wait = s.wait := rfl
@[simp] theorem State.drawRow_halted (s : State) (x0 y : Nat) (b : Byte) : (s.drawRow x0 y b).1.halted = s.halted := rfl
@[simp] theorem State.drawRow_mem (s : State) (x0 y : Nat) (b : Byte) : (s.drawRow x0 y b).1.mem = s.mem := rfl
@[simp] theorem State.drawRow_audio (s : State) (x0 y : Nat) (b : Byte) : (s.drawRow x0 y b).1.audio = s.audio := rfl
@[simp] theorem State.drawRow_cfg (s : State) (x0 y : Nat) (b : Byte) : (s.drawRow x0 y b).1.cfg = s.cfg := rfl
@[simp] theorem State.drawRow_inbox (s : State) (x0 y : Nat) (b : Byte) : (s.drawRow x0 y b).1.inbox = s.inbox := rfl
@[simp] theorem State.drawRow_now (s : State) (x0 y : Nat) (b : Byte) : (s.drawRow x0 y b).1.now = s.now := rfl
@[simp] theorem State.drawRow_stepRnd (s : State) (x0 y : Nat) (b : Byte) : (s.drawRow x0 y b).1.stepRnd = s.stepRnd := rfl
@[simp] theorem State.drawRow_draws (s : State) (x0 y : Nat) (b : Byte) : (s.drawRow x0 y b).1.draws = s.draws := rfl
@[simp] theorem State.drawRow_replies (s : State) (x0 y : Nat) (b : Byte) : (s.drawRow x0 y b).1.replies = s.replies := rfl
@[simp] theorem State.drawRow_ended (s : State) (x0 y : Nat) (b : Byte) : (s.drawRow x0 y b).1.ended = s.ended := rfl

/-! ### Reading through an update -/

/-- A register after a register write. -/
@[simp] theorem State.getV_setV (s : State) (x r : Reg) (b : Byte) :
    (s.setV x b).getV r = if r = x then b else s.getV r := by
  simp [State.getV, State.setV, Vector.getElem_set, Fin.ext_iff, eq_comm]

@[simp] theorem State.getV_setI (s : State) (w : Word) (r : Reg) : (s.setI w).getV r = s.getV r := rfl
@[simp] theorem State.getV_setPc (s : State) (w : Word) (r : Reg) : (s.setPc w).getV r = s.getV r := rfl
@[simp] theorem State.getV_advance (s : State) (r : Reg) : (s.advance).getV r = s.getV r := rfl
@[simp] theorem State.getV_skipIf (s : State) (c : Bool) (r : Reg) : (s.skipIf c).getV r = s.getV r := rfl
@[simp] theorem State.getV_push (s : State) (w : Word) (r : Reg) : (s.push w).getV r = s.getV r := rfl
@[simp] theorem State.getV_raise (s : State) (f : FaultRecord) (r : Reg) : (s.raise f).getV r = s.getV r := rfl
@[simp] theorem State.getV_writeByte (s : State) (a : Nat) (b : Byte) (r : Reg) : (s.writeByte a b).getV r = s.getV r := rfl
@[simp] theorem State.getV_takeClock (s : State) (r : Reg) : (s.takeClock).getV r = s.getV r := rfl
@[simp] theorem State.getV_takeDraw (s : State) (r : Reg) : (s.takeDraw).getV r = s.getV r := rfl
@[simp] theorem State.getV_settleI (s : State) (w : Word) (r : Reg) : (s.settleI w).getV r = s.getV r := rfl
@[simp] theorem State.getV_recordRect (s : State) (x0 y0 n : Nat) (r : Reg) : (s.recordRect x0 y0 n).getV r = s.getV r := rfl
@[simp] theorem State.getV_drawRow (s : State) (x0 y : Nat) (b : Byte) (r : Reg) : (s.drawRow x0 y b).1.getV r = s.getV r := rfl

@[simp] theorem State.readByte_setV (s : State) (x : Reg) (b : Byte) (a : Nat) : (s.setV x b).readByte a = s.readByte a := rfl
@[simp] theorem State.readByte_setI (s : State) (w : Word) (a : Nat) : (s.setI w).readByte a = s.readByte a := rfl
@[simp] theorem State.readByte_setPc (s : State) (w : Word) (a : Nat) : (s.setPc w).readByte a = s.readByte a := rfl
@[simp] theorem State.readByte_advance (s : State) (a : Nat) : (s.advance).readByte a = s.readByte a := rfl
@[simp] theorem State.readByte_skipIf (s : State) (c : Bool) (a : Nat) : (s.skipIf c).readByte a = s.readByte a := rfl
@[simp] theorem State.readByte_push (s : State) (w : Word) (a : Nat) : (s.push w).readByte a = s.readByte a := rfl
@[simp] theorem State.readByte_raise (s : State) (f : FaultRecord) (a : Nat) : (s.raise f).readByte a = s.readByte a := rfl
@[simp] theorem State.readByte_takeClock (s : State) (a : Nat) : (s.takeClock).readByte a = s.readByte a := rfl
@[simp] theorem State.readByte_takeDraw (s : State) (a : Nat) : (s.takeDraw).readByte a = s.readByte a := rfl
@[simp] theorem State.readByte_setDataThenFlag (s : State) (x : Reg) (d f : Byte) (a : Nat) : (s.setDataThenFlag x d f).readByte a = s.readByte a := rfl
@[simp] theorem State.readByte_setLogic (s : State) (x : Reg) (d : Byte) (a : Nat) : (s.setLogic x d).readByte a = s.readByte a := rfl
@[simp] theorem State.readByte_settleI (s : State) (w : Word) (a : Nat) : (s.settleI w).readByte a = s.readByte a := rfl
@[simp] theorem State.readByte_recordRect (s : State) (x0 y0 n : Nat) (a : Nat) : (s.recordRect x0 y0 n).readByte a = s.readByte a := rfl
@[simp] theorem State.readByte_drawRow (s : State) (x0 y : Nat) (b : Byte) (a : Nat) : (s.drawRow x0 y b).1.readByte a = s.readByte a := rfl

/-- A register after data and flag are written: the flag is what remains in VF. -/
theorem State.getV_setDataThenFlag (s : State) (x r : Reg) (d f : Byte) :
    (s.setDataThenFlag x d f).getV r = if r = vf then f else if r = x then d else s.getV r := by
  simp [State.setDataThenFlag]

/-- A register after a logic operation. -/
theorem State.getV_setLogic (s : State) (x r : Reg) (d : Byte) :
    (s.setLogic x d).getV r =
      if r = vf ∧ s.cfg.quirkLogicVf0 = true then 0 else if r = x then d else s.getV r := by
  by_cases h : s.cfg.quirkLogicVf0 = true
  · have : (s.setLogic x d).getV r = (s.setDataThenFlag x d 0).getV r := by simp [State.setLogic, State.getV, h]
    rw [this, State.getV_setDataThenFlag]; simp [h]
  · have : (s.setLogic x d).getV r = (s.setV x d).getV r := by simp [State.setLogic, State.getV, h]
    rw [this]; simp [h]

/-- A flag byte is 0 or 1. -/
theorem flagByte_cases (c : Bool) : (c = true ∧ flagByte c = 1) ∨ (c = false ∧ flagByte c = 0) := by
  cases c <;> simp [flagByte]

end Sys2Proof.Machine
end

