-- ==== Sys2Proof/Laws/Display.lean ====
section
/-!
SUPPORT. What compositing a sprite row does to every cell, and what drawing rows one after another does.
-/

namespace Sys2Proof.Machine

theorem cellIndex_inj (w r r' c c' : Nat) (hc : c < w) (hc' : c' < w) :
    r * w + c = r' * w + c' ↔ r = r' ∧ c = c' := by
  refine ⟨fun h => ?_, fun ⟨h, h'⟩ => by rw [h, h']⟩
  have hr : r = r' := by
    have h1 : (r * w + c) / w = r := by rw [Nat.mul_comm, Nat.mul_add_div (by omega), Nat.div_eq_of_lt hc, Nat.add_zero]
    have h2 : (r' * w + c') / w = r' := by
      rw [Nat.mul_comm, Nat.mul_add_div (by omega), Nat.div_eq_of_lt hc', Nat.add_zero]
    rw [← h1, ← h2, h]
  subst hr; exact ⟨rfl, by omega⟩

theorem cellIndex_lt (w h r c : Nat) (hc : c < w) (hr : r < h) : r * w + c < w * h := by
  calc r * w + c < r * w + w := by omega
    _ = (r + 1) * w := by rw [Nat.succ_mul]
    _ ≤ h * w := Nat.mul_le_mul_right _ hr
    _ = w * h := Nat.mul_comm _ _

theorem getD_set_bool (l : List Bool) (k k' : Nat) (b : Bool) (hk : k < l.length) :
    (l.set k b).getD k' false = if k' = k then b else l.getD k' false := by
  rw [List.getD_eq_getElem?_getD, List.getD_eq_getElem?_getD, List.getElem?_set]
  by_cases h : k' = k
  · subst h; simp [hk]
  · simp [h, Ne.symm h]

/-- The bit of a sprite row `b` at column `c`, its left edge at `x0`, is 1. -/
def rowBit (x0 : Nat) (b : Byte) (c : Nat) : Bool := decide (x0 ≤ c ∧ c < x0 + 8) && b.getLsbD (7 - (c - x0))

/-- What the first `n` bits of a sprite row did to the display `d`. -/
structure PlotsTo (w x0 y : Nat) (b : Byte) (n : Nat) (d : Display) (out : Display × Bool) : Prop where
  cells : out.1.fb.length = d.fb.length
  rows : out.1.dirtyRows.length = d.dirtyRows.length
  rects : out.1.dirtyRects = d.dirtyRects
  pending : out.1.clearPending = d.clearPending
  cell : ∀ c r, c < w →
    out.1.cell w c r = (d.cell w c r ^^ decide (r = y) && decide (x0 ≤ c ∧ c < x0 + n) && b.getLsbD (7 - (c - x0)))
  hit : out.2 = true ↔ ∃ c, c < w ∧ x0 ≤ c ∧ c < x0 + n ∧ b.getLsbD (7 - (c - x0)) = true ∧ d.cell w c y = true
  mark : ∀ r, out.1.dirtyRows.getD r false = true ↔ d.dirtyRows.getD r false = true ∨
    r = y ∧ ∃ c, c < w ∧ x0 ≤ c ∧ c < x0 + n ∧ b.getLsbD (7 - (c - x0)) = true

theorem plotBits_to (w h x0 y : Nat) (b : Byte) (d : Display) (hfb : d.fb.length = w * h)
    (hrows : d.dirtyRows.length = h) (hy : y < h) (n : Nat) :
    PlotsTo w x0 y b n d ((List.range n).foldl (Display.plotBit w x0 y b) (d, false)) := by
  induction n with
  | zero =>
    refine ⟨rfl, rfl, rfl, rfl, fun c r _ => ?_, ?_, fun r => ?_⟩
    · rw [show decide (x0 ≤ c ∧ c < x0 + 0) = false by simp]; simp
    · simp; intros; omega
    · simp; intros; omega
  | succ n ih =>
    rw [List.range_succ, List.foldl_append, List.foldl_cons, List.foldl_nil]
    generalize (List.range n).foldl (Display.plotBit w x0 y b) (d, false) = acc at ih
    obtain ⟨hcells, hmrows, hrects, hpend, hcell, hhit, hmark⟩ := ih
    unfold Display.plotBit
    split
    · rename_i hge
      refine ⟨hcells, hmrows, hrects, hpend, fun c r hc => ?_, ?_, fun r => ?_⟩
      · rw [hcell c r hc, show decide (x0 ≤ c ∧ c < x0 + (n + 1)) = decide (x0 ≤ c ∧ c < x0 + n) by
          rw [decide_eq_decide]; omega]
      · rw [hhit]
        exact ⟨fun ⟨c, h1, h2, h3, h4⟩ => ⟨c, h1, h2, by omega, h4⟩,
          fun ⟨c, h1, h2, h3, h4⟩ => ⟨c, h1, h2, by omega, h4⟩⟩
      · rw [hmark r]
        exact or_congr Iff.rfl (and_congr Iff.rfl
          ⟨fun ⟨c, h1, h2, h3, h4⟩ => ⟨c, h1, h2, by omega, h4⟩,
            fun ⟨c, h1, h2, h3, h4⟩ => ⟨c, h1, h2, by omega, h4⟩⟩)
    · rename_i hlt
      have hlt : x0 + n < w := by omega
      have hnew : ∀ {P : Nat → Prop}, (∃ c, c < w ∧ x0 ≤ c ∧ c < x0 + (n + 1) ∧ P c) ↔
          (∃ c, c < w ∧ x0 ≤ c ∧ c < x0 + n ∧ P c) ∨ P (x0 + n) := by
        intro P
        constructor
        · rintro ⟨c, h1, h2, h3, h4⟩
          by_cases hc : c = x0 + n
          · exact .inr (hc ▸ h4)
          · exact .inl ⟨c, h1, h2, by omega, h4⟩
        · rintro (⟨c, h1, h2, h3, h4⟩ | h)
          · exact ⟨c, h1, h2, by omega, h4⟩
          · exact ⟨x0 + n, hlt, by omega, by omega, h⟩
      have hwas : acc.1.cell w (x0 + n) y = d.cell w (x0 + n) y := by
        rw [hcell _ _ hlt, show decide (x0 ≤ x0 + n ∧ x0 + n < x0 + n) = false by simp]; simp
      have hn : x0 + n - x0 = n := by omega
      split
      · rename_i hbit
        have hk : y * w + (x0 + n) < acc.1.fb.length := by
          rw [hcells, hfb]; exact cellIndex_lt _ _ _ _ hlt hy
        refine ⟨by simp [hcells], by simp [hmrows], hrects, hpend, fun c r hc => ?_, ?_, fun r => ?_⟩
        · have hread : acc.1.fb.getD (r * w + c) false = acc.1.cell w c r := rfl
          show (acc.1.fb.set _ _).getD (r * w + c) false = _
          rw [getD_set_bool _ _ _ _ hk, hread]
          by_cases h : r = y ∧ c = x0 + n
          · obtain ⟨rfl, rfl⟩ := h
            rw [if_pos rfl, hwas]; simp [hn, hbit]
          · rw [if_neg fun e => h ((cellIndex_inj w r y c (x0 + n) hc hlt).1 e), hcell c r hc]
            congr 1
            by_cases hr : r = y
            · subst hr
              have hc' : c ≠ x0 + n := fun h' => h ⟨rfl, h'⟩
              rw [show decide (x0 ≤ c ∧ c < x0 + (n + 1)) = decide (x0 ≤ c ∧ c < x0 + n) by
                rw [decide_eq_decide]; omega]
            · simp [hr]
        · rw [hnew]
          simp only [Bool.or_eq_true, hhit, hwas, hn, hbit, true_and]
        · have hyl : y < acc.1.dirtyRows.length := by omega
          show (acc.1.dirtyRows.set y true).getD r false = true ↔ _
          rw [getD_set_bool _ _ _ _ hyl, hnew]
          by_cases hr : r = y
          · simp [hr, hn, hbit]
          · rw [if_neg hr, hmark r]; simp [hr]
      · rename_i hbit
        refine ⟨hcells, hmrows, hrects, hpend, fun c r hc => ?_, ?_, fun r => ?_⟩
        · rw [hcell c r hc]
          congr 1
          by_cases hc' : c = x0 + n
          · subst hc'; simp [hn, hbit]
          · rw [show decide (x0 ≤ c ∧ c < x0 + (n + 1)) = decide (x0 ≤ c ∧ c < x0 + n) by
              rw [decide_eq_decide]; omega]
        · rw [hnew, hhit]; simp [hn, hbit]
        · rw [hnew, hmark r]; simp [hn, hbit]

/-- `composite` on a row of the display: every cell, the collision and the row marks (spec/45_display.md R211). -/
theorem Display.composite_to (d : Display) (w h x0 y : Nat) (b : Byte) (hfb : d.fb.length = w * h)
    (hrows : d.dirtyRows.length = h) (hy : y < h) : PlotsTo w x0 y b 8 d (d.composite w h x0 y b) := by
  rw [Display.composite, if_neg (by omega)]
  exact plotBits_to w h x0 y b d hfb hrows hy 8

/-- `composite` below the bottom edge: no change and no collision (spec/45_display.md R212). -/
theorem Display.composite_below (d : Display) (w h x0 y : Nat) (b : Byte) (hy : h ≤ y) :
    d.composite w h x0 y b = (d, false) := by
  rw [Display.composite, if_pos hy]

/-- Row `r` of the screen is one of the `count` sprite rows from `row` on, and its bit at column `c` is 1. -/
def State.rowsBit (s : State) (x0 y0 row count c r : Nat) : Bool :=
  decide (y0 + row ≤ r ∧ r < y0 + row + count) && rowBit x0 (s.readByte (s.indirect (r - y0))) c

/-- What drawing the `count` sprite rows from `row` on did to the display. -/
structure DrawsTo (s : State) (x0 y0 row count : Nat) (any : Bool) (d : Display) (any' : Bool) : Prop where
  size : d.wf s.cfg
  rects : d.dirtyRects = s.display.dirtyRects
  pending : d.clearPending = s.display.clearPending
  cell : ∀ c r, c < s.cfg.displayW → r < s.cfg.displayH →
    d.cell s.cfg.displayW c r = (s.display.cell s.cfg.displayW c r ^^ s.rowsBit x0 y0 row count c r)
  hit : any' = true ↔ any = true ∨ ∃ c r, c < s.cfg.displayW ∧ r < s.cfg.displayH ∧
    s.rowsBit x0 y0 row count c r = true ∧ s.display.cell s.cfg.displayW c r = true
  mark : ∀ r, d.dirtyRows.getD r false = true ↔ s.display.dirtyRows.getD r false = true ∨
    r < s.cfg.displayH ∧ ∃ c, c < s.cfg.displayW ∧ s.rowsBit x0 y0 row count c r = true

theorem State.rowsBit_succ (s : State) (x0 y0 row count c r : Nat) :
    s.rowsBit x0 y0 row (count + 1) c r =
      (decide (r = y0 + row) && rowBit x0 (s.readByte (s.indirect row)) c || s.rowsBit x0 y0 (row + 1) count c r) := by
  unfold State.rowsBit
  by_cases h : r = y0 + row
  · subst h
    rw [show decide (y0 + row ≤ y0 + row ∧ y0 + row < y0 + row + (count + 1)) = true by simp,
      show decide (y0 + (row + 1) ≤ y0 + row ∧ y0 + row < y0 + (row + 1) + count) = false by
        rw [decide_eq_false_iff_not]; omega,
      show y0 + row - y0 = row by omega]
    simp
  · rw [show decide (y0 + row ≤ r ∧ r < y0 + row + (count + 1)) =
      decide (y0 + (row + 1) ≤ r ∧ r < y0 + (row + 1) + count) by rw [decide_eq_decide]; omega]
    simp [h]

theorem State.rowsBit_next (s : State) (x0 y0 row count c : Nat) :
    s.rowsBit x0 y0 (row + 1) count c (y0 + row) = false := by
  unfold State.rowsBit
  rw [show decide (y0 + (row + 1) ≤ y0 + row ∧ y0 + row < y0 + (row + 1) + count) = false by
    rw [decide_eq_false_iff_not]; omega]
  rfl

/-- One row drawn, then the rest: together they are the rows from the first on. -/
theorem DrawsTo.step (s : State) (x0 y0 row count : Nat) (any any' : Bool) (d : Display)
    (hwf : s.display.wf s.cfg)
    (h : DrawsTo (s.drawRow x0 (y0 + row) (s.readByte (s.indirect row))).1 x0 y0 (row + 1) count
      (any || (s.drawRow x0 (y0 + row) (s.readByte (s.indirect row))).2) d any') :
    DrawsTo s x0 y0 row (count + 1) any d any' := by
  have hbit : ∀ c r, (s.drawRow x0 (y0 + row) (s.readByte (s.indirect row))).1.rowsBit x0 y0 (row + 1) count c r =
      s.rowsBit x0 y0 (row + 1) count c r := fun _ _ => rfl
  obtain ⟨hsize, hrects, hpend, hcell, hhit, hmark⟩ := h
  simp only [State.drawRow_cfg, State.drawRow_display, hbit] at hsize hrects hpend hcell hhit hmark
  have h2 : (s.drawRow x0 (y0 + row) (s.readByte (s.indirect row))).2 =
    (s.display.composite s.cfg.displayW s.cfg.displayH x0 (y0 + row) (s.readByte (s.indirect row))).2 := rfl
  rw [h2] at hhit
  by_cases hy : y0 + row < s.cfg.displayH
  · obtain ⟨-, -, pr, pp, pc, ph, pm⟩ := Display.composite_to s.display s.cfg.displayW s.cfg.displayH x0 (y0 + row)
      (s.readByte (s.indirect row)) hwf.1 hwf.2 hy
    have hrow : ∀ c, rowBit x0 (s.readByte (s.indirect row)) c = true ↔
        x0 ≤ c ∧ c < x0 + 8 ∧ (s.readByte (s.indirect row)).getLsbD (7 - (c - x0)) = true := by
      intro c; simp [rowBit, and_assoc]
    refine ⟨hsize, hrects.trans pr, hpend.trans pp, fun c r hc hr => ?_, ?_, fun r => ?_⟩
    · rw [hcell c r hc hr, pc c r hc, State.rowsBit_succ]
      by_cases h : r = y0 + row
      · subst h; rw [State.rowsBit_next]; simp [rowBit]
      · simp [h]
    · rw [hhit, Bool.or_eq_true, ph]
      constructor
      · rintro ((h | ⟨c, h1, h3, h4, h5, h6⟩) | ⟨c, r, h1, h3, h4, h5⟩)
        · exact .inl h
        · exact .inr ⟨c, _, h1, hy, by rw [State.rowsBit_succ]; simp [(hrow c).2 ⟨h3, h4, h5⟩], h6⟩
        · refine .inr ⟨c, r, h1, h3, by rw [State.rowsBit_succ]; simp [h4], ?_⟩
          have hne : r ≠ y0 + row := fun e => by subst e; rw [State.rowsBit_next] at h4; cases h4
          rw [pc c r h1] at h5; simpa [hne] using h5
      · rintro (h | ⟨c, r, h1, h3, h4, h5⟩)
        · exact .inl (.inl h)
        · by_cases h : r = y0 + row
          · subst h
            rw [State.rowsBit_succ, State.rowsBit_next] at h4
            have h4 := (hrow c).1 (by simpa using h4)
            exact .inl (.inr ⟨c, h1, h4.1, h4.2.1, h4.2.2, h5⟩)
          · refine .inr ⟨c, r, h1, h3, by rw [State.rowsBit_succ] at h4; simpa [h] using h4, ?_⟩
            rw [pc c r h1]; simpa [h] using h5
    · rw [hmark r, pm r]
      constructor
      · rintro ((h | ⟨rfl, c, h1, h3, h4, h5⟩) | ⟨h1, c, h3, h4⟩)
        · exact .inl h
        · exact .inr ⟨hy, c, h1, by rw [State.rowsBit_succ]; simp [(hrow c).2 ⟨h3, h4, h5⟩]⟩
        · exact .inr ⟨h1, c, h3, by rw [State.rowsBit_succ]; simp [h4]⟩
      · rintro (h | ⟨h1, c, h3, h4⟩)
        · exact .inl (.inl h)
        · by_cases h : r = y0 + row
          · subst h
            rw [State.rowsBit_succ, State.rowsBit_next] at h4
            have h4 := (hrow c).1 (by simpa using h4)
            exact .inl (.inr ⟨rfl, c, h3, h4.1, h4.2.1, h4.2.2⟩)
          · exact .inr ⟨h1, c, h3, by rw [State.rowsBit_succ] at h4; simpa [h] using h4⟩
  · have hout : ∀ c r, r < s.cfg.displayH →
        s.rowsBit x0 y0 row (count + 1) c r = s.rowsBit x0 y0 (row + 1) count c r := by
      intro c r hr
      rw [State.rowsBit_succ, show decide (r = y0 + row) = false by simp; omega]; simp
    rw [Display.composite_below _ _ _ _ _ _ (by omega)] at hrects hpend hcell hhit hmark
    refine ⟨hsize, hrects, hpend, fun c r hc hr => ?_, ?_, fun r => ?_⟩
    · rw [hcell c r hc hr, hout c r hr]
    · rw [hhit, Bool.or_false]
      exact or_congr Iff.rfl (exists_congr fun c => exists_congr fun r => and_congr Iff.rfl
        (and_congr_right fun hr => by rw [hout c r hr]))
    · rw [hmark r]
      exact or_congr Iff.rfl (and_congr_right fun hr => exists_congr fun c => by rw [hout c r hr])

theorem State.drawRow_wf (s : State) (x0 y : Nat) (b : Byte) (h : s.display.wf s.cfg) :
    (s.drawRow x0 y b).1.display.wf s.cfg := by
  rw [State.drawRow_display]
  by_cases hy : y < s.cfg.displayH
  · have p := Display.composite_to s.display s.cfg.displayW s.cfg.displayH x0 y b h.1 h.2 hy
    exact ⟨p.cells.trans h.1, p.rows.trans h.2⟩
  · rw [Display.composite_below _ _ _ _ _ _ (by omega)]; exact h

theorem DrawsTo.none (s : State) (x0 y0 row : Nat) (any : Bool) (h : s.display.wf s.cfg) :
    DrawsTo s x0 y0 row 0 any s.display any := by
  have hb : ∀ c r, s.rowsBit x0 y0 row 0 c r = false := by
    intro c r; unfold State.rowsBit
    rw [show decide (y0 + row ≤ r ∧ r < y0 + row + 0) = false by rw [decide_eq_false_iff_not]; omega]; rfl
  exact ⟨h, rfl, rfl, fun c r _ _ => by simp [hb], by simp [hb], fun r => by simp [hb]⟩

/-- Drawing sprite rows: all of them drawn, or those whose bytes lie below 0x1000 drawn and the fault raised at the
first byte beyond. -/
theorem State.drawRows_cases (x0 y0 count : Nat) (s : State) (row : Nat) (any : Bool) (hwf : s.display.wf s.cfg)
    (hi : s.i.toNat + row ≤ 0x1000) :
    (s.i.toNat + row + count ≤ 0x1000 ∧ ∃ t any', State.drawRows x0 y0 s count row any = .done any' t ∧
      t = { s with display := t.display } ∧ DrawsTo s x0 y0 row count any t.display any') ∨
    (0x1000 < s.i.toNat + row + count ∧ ∃ t any', State.drawRows x0 y0 s count row any = .raised t ∧
      t = { s with display := t.display, halted := some (.addressBounds 0x1000) } ∧
      DrawsTo s x0 y0 row (0x1000 - (s.i.toNat + row)) any t.display any') := by
  induction count generalizing s row any with
  | zero => exact .inl ⟨hi, s, any, rfl, rfl, DrawsTo.none s x0 y0 row any hwf⟩
  | succ count ih =>
    rcases s.memRead_cases (s.indirect row) with ⟨ha, hw⟩ | ⟨ha, hw⟩ <;> simp only [State.indirect] at ha
    · have hstep : State.drawRows x0 y0 s (count + 1) row any =
          State.drawRows x0 y0 (s.drawRow x0 (y0 + row) (s.readByte (s.indirect row))).1 count (row + 1)
            (any || (s.drawRow x0 (y0 + row) (s.readByte (s.indirect row))).2) := by
        simp only [State.drawRows, hw]
      rcases ih (s.drawRow x0 (y0 + row) (s.readByte (s.indirect row))).1 (row + 1)
        (any || (s.drawRow x0 (y0 + row) (s.readByte (s.indirect row))).2)
        (by rw [State.drawRow_cfg]; exact State.drawRow_wf _ _ _ _ hwf) (by rw [State.drawRow_i]; omega) with
        ⟨hl, t, any', ht, hfr, hd⟩ | ⟨hl, t, any', ht, hfr, hd⟩ <;> simp only [State.drawRow_i] at hl hd
      · exact .inl ⟨by omega, t, any', hstep ▸ ht, by rw [hfr]; rfl, DrawsTo.step _ _ _ _ _ _ _ _ hwf hd⟩
      · refine .inr ⟨by omega, t, any', hstep ▸ ht, by rw [hfr]; rfl, ?_⟩
        rw [show 0x1000 - (s.i.toNat + row) = (0x1000 - (s.i.toNat + (row + 1))) + 1 by omega]
        exact DrawsTo.step _ _ _ _ _ _ _ _ hwf hd
    · have he : s.i.toNat + row = 0x1000 := by omega
      refine .inr ⟨by omega, s.raise (.addressBounds 0x1000), any, ?_, rfl, ?_⟩
      · simp only [State.drawRows, hw]; rw [State.indirect, he]
      · rw [he]; exact DrawsTo.none s x0 y0 row any hwf

/-- Drawing rows changes the display and, where it faults, the latch: for every `I`. -/
theorem State.drawRows_frame (x0 y0 count : Nat) (s : State) (row : Nat) (any : Bool) :
    (∃ t any', State.drawRows x0 y0 s count row any = .done any' t ∧ t = { s with display := t.display }) ∨
    ∃ t f, State.drawRows x0 y0 s count row any = .raised t ∧
      t = { s with display := t.display, halted := some f } := by
  induction count generalizing s row any with
  | zero => exact .inl ⟨s, any, rfl, rfl⟩
  | succ count ih =>
    rcases s.memRead_cases (s.indirect row) with ⟨_, h⟩ | ⟨_, h⟩ <;> simp only [State.drawRows, h]
    · rcases ih (s.drawRow x0 (y0 + row) (s.readByte (s.indirect row))).1 (row + 1)
        (any || (s.drawRow x0 (y0 + row) (s.readByte (s.indirect row))).2) with ⟨t, a, ht, hf⟩ | ⟨t, f, ht, hf⟩
      · exact .inl ⟨t, a, ht, by rw [hf]; rfl⟩
      · exact .inr ⟨t, f, ht, by rw [hf]; rfl⟩
    · exact .inr ⟨_, _, rfl, rfl⟩

end Sys2Proof.Machine
end

