-- ==== Sys2Proof/Laws/PerInstr.lean ====
section
/-!
SUPPORT. Laws of every instruction as text, one lemma for each constructor. The family `Encoding`: the encoded word
matches the instruction's row of the opcode map (spec/30_encoding.md R74: "op & mask = match").
-/

/-- The opcode of an instruction that has an encoding matches its row of the opcode map. -/
def Sys2Proof.Laws.Encoding.Statement (i : Sys2Proof.Instr) : Prop :=
  i.wf = true → Sys2Proof.encodeOpcode i &&& i.tableMask = i.tableMatch

namespace Sys2Proof.Laws

/-- A number written as a high part times a power of two and a low part is the two parts side by side. -/
theorem ofNat_append (m k c : Nat) (lo : BitVec k) :
    BitVec.ofNat (m + k) (c * 2 ^ k + lo.toNat) = BitVec.ofNat m c ++ lo := by
  apply BitVec.eq_of_toNat_eq
  rw [BitVec.toNat_append, BitVec.toNat_ofNat, BitVec.toNat_ofNat,
    ← Nat.shiftLeft_add_eq_or_of_lt lo.isLt, Nat.shiftLeft_eq, Nat.pow_add, Nat.mul_comm (2 ^ m) (2 ^ k),
    Nat.mod_mul, Nat.mul_comm c, Nat.mul_add_div (Nat.two_pow_pos k), Nat.mul_add_mod,
    Nat.div_eq_of_lt lo.isLt, Nat.mod_eq_of_lt lo.isLt, Nat.add_zero, Nat.mul_comm (c % 2 ^ m), Nat.add_comm]

/-- A class and twelve further bits: the class mask keeps the class. -/
theorem class_mask (c lo : Nat) (h : lo < 4096) :
    BitVec.ofNat 16 (c * 4096 + lo) &&& 0xF000 = BitVec.ofNat 16 (c * 4096) := by
  have h1 := ofNat_append 4 12 c (BitVec.ofNat 12 lo)
  have h0 := ofNat_append 4 12 c 0#12
  have hm : (0xF000 : BitVec 16) = BitVec.allOnes 4 ++ 0#12 := by decide
  simp only [Nat.reducePow, Nat.reduceAdd, BitVec.toNat_ofNat, Nat.mod_eq_of_lt h, Nat.zero_mod, Nat.add_zero] at h1 h0
  rw [h1, h0, hm, BitVec.and_append, BitVec.and_allOnes, BitVec.and_zero]

/-- A class, eight bits and a low nibble: the mask of class 8 keeps the class and the nibble. -/
theorem nibble_mask (c mid n : Nat) (hmid : mid < 256) (hn : n < 16) :
    BitVec.ofNat 16 (c * 4096 + mid * 16 + n) &&& 0xF00F = BitVec.ofNat 16 (c * 4096 + n) := by
  have key : ∀ mid < 256, BitVec.ofNat 16 ((c * 256 + mid) * 16 + n) =
      (BitVec.ofNat 4 c ++ BitVec.ofNat 8 mid) ++ BitVec.ofNat 4 n := by
    intro mid hmid
    have h1 := ofNat_append 12 4 (c * 256 + mid) (BitVec.ofNat 4 n)
    have h2 := ofNat_append 4 8 c (BitVec.ofNat 8 mid)
    simp only [Nat.reducePow, Nat.reduceAdd, BitVec.toNat_ofNat, Nat.mod_eq_of_lt hn, Nat.mod_eq_of_lt hmid] at h1 h2
    rw [h1, h2]
  have hm : (0xF00F : BitVec 16) = (BitVec.allOnes 4 ++ 0#8) ++ BitVec.allOnes 4 := by decide
  rw [show c * 4096 + mid * 16 + n = (c * 256 + mid) * 16 + n by omega,
    show c * 4096 + n = (c * 256 + 0) * 16 + n by omega, key _ hmid, key 0 (by omega), hm, BitVec.and_append,
    BitVec.and_append, BitVec.and_allOnes, BitVec.and_zero, BitVec.and_allOnes]

/-- A class, a register and a low byte: the mask of classes E and F keeps the class and the byte. -/
theorem byte_mask (c x sub : Nat) (hx : x < 16) (hs : sub < 256) :
    BitVec.ofNat 16 (c * 4096 + x * 256 + sub) &&& 0xF0FF = BitVec.ofNat 16 (c * 4096 + sub) := by
  have key : ∀ x < 16, BitVec.ofNat 16 ((c * 16 + x) * 256 + sub) =
      (BitVec.ofNat 4 c ++ BitVec.ofNat 4 x) ++ BitVec.ofNat 8 sub := by
    intro x hx
    have h1 := ofNat_append 8 8 (c * 16 + x) (BitVec.ofNat 8 sub)
    have h2 := ofNat_append 4 4 c (BitVec.ofNat 4 x)
    simp only [Nat.reducePow, Nat.reduceAdd, BitVec.toNat_ofNat, Nat.mod_eq_of_lt hx, Nat.mod_eq_of_lt hs] at h1 h2
    rw [h1, h2]
  have hm : (0xF0FF : BitVec 16) = (BitVec.allOnes 4 ++ 0#4) ++ BitVec.allOnes 8 := by decide
  rw [show c * 4096 + x * 256 + sub = (c * 16 + x) * 256 + sub by omega,
    show c * 4096 + sub = (c * 16 + 0) * 256 + sub by omega, key _ hx, key 0 (by omega), hm, BitVec.and_append,
    BitVec.and_append, BitVec.and_allOnes, BitVec.and_zero, BitVec.and_allOnes]

theorem nnn_row (cls : Nat) (nnn : Addr12) :
    encodeNnn cls nnn &&& 0xF000 = BitVec.ofNat 16 (cls * 4096) := class_mask _ _ nnn.isLt

theorem xkk_row (cls : Nat) (x : Reg) (kk : Byte) :
    encodeXkk cls x kk &&& 0xF000 = BitVec.ofNat 16 (cls * 4096) := by
  have h := class_mask cls (x.val * 256 + kk.toNat) (by omega)
  rwa [← Nat.add_assoc] at h

theorem xy_row (cls : Nat) (x y : Reg) (n : Nat) (hn : n < 16) :
    encodeXyn cls x y n &&& 0xF00F = BitVec.ofNat 16 (cls * 4096 + n) ∧
    encodeXyn cls x y n &&& 0xF000 = BitVec.ofNat 16 (cls * 4096) := by
  have h1 := nibble_mask cls (x.val * 16 + y.val) n (by omega) hn
  have h2 := class_mask cls (x.val * 256 + y.val * 16 + n) (by omega)
  rw [show cls * 4096 + (x.val * 16 + y.val) * 16 + n = cls * 4096 + x.val * 256 + y.val * 16 + n by omega] at h1
  rw [show cls * 4096 + (x.val * 256 + y.val * 16 + n) = cls * 4096 + x.val * 256 + y.val * 16 + n by omega] at h2
  exact ⟨h1, h2⟩

theorem x_row (cls : Nat) (x : Reg) (sub : Nat) (hs : sub < 256) :
    encodeX cls x sub &&& 0xF0FF = BitVec.ofNat 16 (cls * 4096 + sub) := byte_mask _ _ _ x.isLt hs

end Sys2Proof.Laws

theorem Sys2Proof.Laws.Encoding.cls :
    Sys2Proof.Laws.Encoding.Statement (.cls) :=
  fun _ => rfl

theorem Sys2Proof.Laws.Encoding.ret :
    Sys2Proof.Laws.Encoding.Statement (.ret) :=
  fun _ => rfl

theorem Sys2Proof.Laws.Encoding.jp (nnn : Sys2Proof.Addr12) :
    Sys2Proof.Laws.Encoding.Statement (.jp nnn) :=
  fun _ => Sys2Proof.Laws.nnn_row 1 nnn

theorem Sys2Proof.Laws.Encoding.call (nnn : Sys2Proof.Addr12) :
    Sys2Proof.Laws.Encoding.Statement (.call nnn) :=
  fun _ => Sys2Proof.Laws.nnn_row 2 nnn

theorem Sys2Proof.Laws.Encoding.seImm (x : Sys2Proof.Reg) (kk : Sys2Proof.Byte) :
    Sys2Proof.Laws.Encoding.Statement (.seImm x kk) :=
  fun _ => Sys2Proof.Laws.xkk_row 3 x kk

theorem Sys2Proof.Laws.Encoding.sneImm (x : Sys2Proof.Reg) (kk : Sys2Proof.Byte) :
    Sys2Proof.Laws.Encoding.Statement (.sneImm x kk) :=
  fun _ => Sys2Proof.Laws.xkk_row 4 x kk

theorem Sys2Proof.Laws.Encoding.seReg (x : Sys2Proof.Reg) (y : Sys2Proof.Reg) :
    Sys2Proof.Laws.Encoding.Statement (.seReg x y) :=
  fun _ => (Sys2Proof.Laws.xy_row 5 x y 0 (by decide)).2

theorem Sys2Proof.Laws.Encoding.ldImm (x : Sys2Proof.Reg) (kk : Sys2Proof.Byte) :
    Sys2Proof.Laws.Encoding.Statement (.ldImm x kk) :=
  fun _ => Sys2Proof.Laws.xkk_row 6 x kk

theorem Sys2Proof.Laws.Encoding.addImm (x : Sys2Proof.Reg) (kk : Sys2Proof.Byte) :
    Sys2Proof.Laws.Encoding.Statement (.addImm x kk) :=
  fun _ => Sys2Proof.Laws.xkk_row 7 x kk

theorem Sys2Proof.Laws.Encoding.ldReg (x : Sys2Proof.Reg) (y : Sys2Proof.Reg) :
    Sys2Proof.Laws.Encoding.Statement (.ldReg x y) :=
  fun _ => (Sys2Proof.Laws.xy_row 8 x y 0 (by decide)).1

theorem Sys2Proof.Laws.Encoding.or (x : Sys2Proof.Reg) (y : Sys2Proof.Reg) :
    Sys2Proof.Laws.Encoding.Statement (.or x y) :=
  fun _ => (Sys2Proof.Laws.xy_row 8 x y 1 (by decide)).1

theorem Sys2Proof.Laws.Encoding.and (x : Sys2Proof.Reg) (y : Sys2Proof.Reg) :
    Sys2Proof.Laws.Encoding.Statement (.and x y) :=
  fun _ => (Sys2Proof.Laws.xy_row 8 x y 2 (by decide)).1

theorem Sys2Proof.Laws.Encoding.xor (x : Sys2Proof.Reg) (y : Sys2Proof.Reg) :
    Sys2Proof.Laws.Encoding.Statement (.xor x y) :=
  fun _ => (Sys2Proof.Laws.xy_row 8 x y 3 (by decide)).1

theorem Sys2Proof.Laws.Encoding.addReg (x : Sys2Proof.Reg) (y : Sys2Proof.Reg) :
    Sys2Proof.Laws.Encoding.Statement (.addReg x y) :=
  fun _ => (Sys2Proof.Laws.xy_row 8 x y 4 (by decide)).1

theorem Sys2Proof.Laws.Encoding.sub (x : Sys2Proof.Reg) (y : Sys2Proof.Reg) :
    Sys2Proof.Laws.Encoding.Statement (.sub x y) :=
  fun _ => (Sys2Proof.Laws.xy_row 8 x y 5 (by decide)).1

theorem Sys2Proof.Laws.Encoding.shr (x : Sys2Proof.Reg) (y : Sys2Proof.Reg) :
    Sys2Proof.Laws.Encoding.Statement (.shr x y) :=
  fun _ => (Sys2Proof.Laws.xy_row 8 x y 6 (by decide)).1

theorem Sys2Proof.Laws.Encoding.subn (x : Sys2Proof.Reg) (y : Sys2Proof.Reg) :
    Sys2Proof.Laws.Encoding.Statement (.subn x y) :=
  fun _ => (Sys2Proof.Laws.xy_row 8 x y 7 (by decide)).1

theorem Sys2Proof.Laws.Encoding.shl (x : Sys2Proof.Reg) (y : Sys2Proof.Reg) :
    Sys2Proof.Laws.Encoding.Statement (.shl x y) :=
  fun _ => (Sys2Proof.Laws.xy_row 8 x y 14 (by decide)).1

theorem Sys2Proof.Laws.Encoding.sneReg (x : Sys2Proof.Reg) (y : Sys2Proof.Reg) :
    Sys2Proof.Laws.Encoding.Statement (.sneReg x y) :=
  fun _ => (Sys2Proof.Laws.xy_row 9 x y 0 (by decide)).2

theorem Sys2Proof.Laws.Encoding.ldI (nnn : Sys2Proof.Addr12) :
    Sys2Proof.Laws.Encoding.Statement (.ldI nnn) :=
  fun _ => Sys2Proof.Laws.nnn_row 10 nnn

theorem Sys2Proof.Laws.Encoding.jpV0 (nnn : Sys2Proof.Addr12) :
    Sys2Proof.Laws.Encoding.Statement (.jpV0 nnn) :=
  fun _ => Sys2Proof.Laws.nnn_row 11 nnn

theorem Sys2Proof.Laws.Encoding.rnd (x : Sys2Proof.Reg) (kk : Sys2Proof.Byte) :
    Sys2Proof.Laws.Encoding.Statement (.rnd x kk) :=
  fun _ => Sys2Proof.Laws.xkk_row 12 x kk

theorem Sys2Proof.Laws.Encoding.drw (x : Sys2Proof.Reg) (y : Sys2Proof.Reg) (n : Nat) :
    Sys2Proof.Laws.Encoding.Statement (.drw x y n) :=
  fun h => (Sys2Proof.Laws.xy_row 13 x y n (of_decide_eq_true h)).2

theorem Sys2Proof.Laws.Encoding.skp (x : Sys2Proof.Reg) :
    Sys2Proof.Laws.Encoding.Statement (.skp x) :=
  fun _ => Sys2Proof.Laws.x_row 14 x 0x9e (by decide)

theorem Sys2Proof.Laws.Encoding.sknp (x : Sys2Proof.Reg) :
    Sys2Proof.Laws.Encoding.Statement (.sknp x) :=
  fun _ => Sys2Proof.Laws.x_row 14 x 0xa1 (by decide)

theorem Sys2Proof.Laws.Encoding.ldVxDt (x : Sys2Proof.Reg) :
    Sys2Proof.Laws.Encoding.Statement (.ldVxDt x) :=
  fun _ => Sys2Proof.Laws.x_row 15 x 0x7 (by decide)

theorem Sys2Proof.Laws.Encoding.ldVxK (x : Sys2Proof.Reg) :
    Sys2Proof.Laws.Encoding.Statement (.ldVxK x) :=
  fun _ => Sys2Proof.Laws.x_row 15 x 0xa (by decide)

theorem Sys2Proof.Laws.Encoding.ldDtVx (x : Sys2Proof.Reg) :
    Sys2Proof.Laws.Encoding.Statement (.ldDtVx x) :=
  fun _ => Sys2Proof.Laws.x_row 15 x 0x15 (by decide)

theorem Sys2Proof.Laws.Encoding.ldStVx (x : Sys2Proof.Reg) :
    Sys2Proof.Laws.Encoding.Statement (.ldStVx x) :=
  fun _ => Sys2Proof.Laws.x_row 15 x 0x18 (by decide)

theorem Sys2Proof.Laws.Encoding.addI (x : Sys2Proof.Reg) :
    Sys2Proof.Laws.Encoding.Statement (.addI x) :=
  fun _ => Sys2Proof.Laws.x_row 15 x 0x1e (by decide)

theorem Sys2Proof.Laws.Encoding.ldF (x : Sys2Proof.Reg) :
    Sys2Proof.Laws.Encoding.Statement (.ldF x) :=
  fun _ => Sys2Proof.Laws.x_row 15 x 0x29 (by decide)

theorem Sys2Proof.Laws.Encoding.ldB (x : Sys2Proof.Reg) :
    Sys2Proof.Laws.Encoding.Statement (.ldB x) :=
  fun _ => Sys2Proof.Laws.x_row 15 x 0x33 (by decide)

theorem Sys2Proof.Laws.Encoding.storeRegs (x : Sys2Proof.Reg) :
    Sys2Proof.Laws.Encoding.Statement (.storeRegs x) :=
  fun _ => Sys2Proof.Laws.x_row 15 x 0x55 (by decide)

theorem Sys2Proof.Laws.Encoding.loadRegs (x : Sys2Proof.Reg) :
    Sys2Proof.Laws.Encoding.Statement (.loadRegs x) :=
  fun _ => Sys2Proof.Laws.x_row 15 x 0x65 (by decide)
end

