-- ==== Sys2Proof/Laws/Step.lean ====
section
/-!
SUPPORT. What a step can do, said once: which event it delivers, and how running an instruction ends.
-/

namespace Sys2Proof.Machine

/-- A queued event is delivered. -/
theorem step_queued (s : State) (e : Event) (rest : List Event) (h : s.inbox = e :: rest) :
    step s = { s with inbox := rest }.deliver e := by
  simp [step, State.nextEvent, h]

/-- A `Step` is delivered unless the run is over. -/
theorem State.deliver_step (s : State) (now : Nat) (rnd : Byte) (he : s.ended = false) :
    s.deliver (.step now rnd) = s.onStep now rnd := by
  simp [State.deliver, State.handle, he]

/-- A running machine handles the oldest queued event. -/
theorem step_next (s : State) (e : Event) (rest : List Event) (h : s.nextIs e rest) :
    step s = { s with inbox := rest }.handle e := by
  rw [step_queued s e rest h.1, State.deliver, if_neg (by simp [h.2])]

/-- A `Reset` is handled whether the run is over or not. -/
theorem step_reset (s : State) (rom : List Byte) (rest : List Event) (h : s.inbox = .reset rom :: rest) :
    step s = { s with inbox := rest }.onReset rom := by
  rw [step_queued s _ rest h, State.deliver, if_neg (by simp [Event.isReset])]; rfl

/-- Every instruction ends in a next state: a fault of the hardware is one. -/
theorem exec_next (i : Instr) (s : State) : ∃ t, exec i s = .next t := by
  cases i
  case ret => unfold exec execRet; dsimp only; split <;> exact ⟨_, rfl⟩
  case ldF x => unfold exec execLdF; dsimp only; split <;> exact ⟨_, rfl⟩
  case ldB x => unfold exec execLdB; dsimp only; split <;> exact ⟨_, rfl⟩
  case storeRegs x => unfold exec execStoreRegs; dsimp only; split <;> exact ⟨_, rfl⟩
  case loadRegs x => unfold exec execLoadRegs; dsimp only; split <;> exact ⟨_, rfl⟩
  case drw x y n => unfold exec execDrw; dsimp only; split <;> exact ⟨_, rfl⟩
  all_goals exact ⟨_, rfl⟩

/-- With no event queued the free `Step` is delivered. -/
theorem step_free (s : State) (h : s.inbox = []) (he : s.ended = false) : step s = s.onFreeStep := by
  simp [step, State.nextEvent, h, he]

/-- The free `Step` of a core that is not halted runs the instruction at `PC`. -/
theorem step_runs (s : State) (h : s.stepsFreely) : step s = { s with stepRnd := none }.runInstruction := by
  rw [step_free s h.1 h.2.1]; simp [State.onFreeStep, h.2.2]

/-- A `Step` of a core that is not halted, free or queued, runs the instruction at `PC` with its inputs taken. -/
theorem step_takes (s s0 : State) (h : s.takesStep s0) : step s = s0.runInstruction := by
  obtain ⟨he, hh, ⟨hi, rfl⟩ | ⟨now, rnd, rest, hi, hn, rfl⟩⟩ := h
  · exact step_runs s ⟨hi, he, hh⟩
  · rw [step_next s _ rest ⟨hi, he⟩]; simp [State.handle, State.onStep, hh, Nat.not_lt.2 hn]

/-- Running an instruction: the fetch faults, the word is no instruction, or the decoded instruction is executed. -/
theorem State.runInstruction_cases (s : State) :
    ((s.pc.toNat < 0x200 ∨ 0xFFE < s.pc.toNat) ∧
      s.runInstruction = .next (s.raise (.addressBounds s.pc.toNat))) ∨
    (s.fetchable ∧ decodeOpcode s.wordAtPc = none ∧
      s.runInstruction = .next (s.raise (.invalidOpcode s.wordAtPc))) ∨
    (s.fetchable ∧ ∃ ins, decodeOpcode s.wordAtPc = some ins ∧ s.runInstruction = exec ins s) := by
  rcases s.fetch_cases with ⟨h1, h2, hf⟩ | ⟨h, hf⟩
  · cases hd : decodeOpcode s.wordAtPc with
    | none => refine .inr (.inl ⟨⟨h1, h2⟩, rfl, ?_⟩); simp only [State.wordAtPc] at hd ⊢; simp [State.runInstruction, hf, hd]
    | some ins =>
      refine .inr (.inr ⟨⟨h1, h2⟩, ins, rfl, ?_⟩)
      simp only [State.wordAtPc] at hd; simp [State.runInstruction, hf, hd]
  · exact .inl ⟨h, by simp [State.runInstruction, hf]⟩

/-- What a step that gives a next state did: nothing while halted, one instruction after the inputs of its `Step` were
taken, or one of the other events. -/
theorem step_cases (s t : State) (h : step s = .next t) :
    (s.ended = false ∧ ∃ s0, (s.inbox = [] ∧ s0 = s ∨
        ∃ now rnd rest, s.inbox = .step now rnd :: rest ∧ s0 = { s with inbox := rest }) ∧
      s.halted ≠ none ∧ t = s0) ∨
    (∃ s0, s.takesStep s0 ∧ s0.runInstruction = .next t) ∨
    (∃ e rest, s.inbox = e :: rest ∧ (∀ now rnd, e ≠ .step now rnd) ∧ (s.ended = false ∨ e.isReset = true) ∧
      { s with inbox := rest }.deliver e = .next t) := by
  cases hi : s.inbox with
  | nil =>
    by_cases he : s.ended = false
    · rw [step_free s hi he, State.onFreeStep] at h
      split at h
      · rename_i hh
        exact .inl ⟨he, s, .inl ⟨rfl, rfl⟩, by cases hx : s.halted <;> simp_all, by injection h with h; exact h.symm⟩
      · rename_i hh
        exact .inr (.inl ⟨{ s with stepRnd := none }, ⟨he, by cases hx : s.halted <;> simp_all, .inl ⟨hi, rfl⟩⟩, h⟩)
    · simp [step, State.nextEvent, hi, he] at h
  | cons e rest =>
    rw [step_queued s e rest hi] at h
    by_cases he : s.ended = false ∨ e.isReset = true
    · by_cases hs : ∃ now rnd, e = .step now rnd
      · obtain ⟨now, rnd, rfl⟩ := hs
        have he : s.ended = false := by simpa [Event.isReset] using he
        rw [State.deliver_step { s with inbox := rest } now rnd he, State.onStep] at h
        split at h
        · rename_i hh
          exact .inl ⟨he, _, .inr ⟨now, rnd, rest, rfl, rfl⟩, by cases hx : s.halted <;> simp_all,
            by injection h with h; exact h.symm⟩
        · rename_i hh
          split at h
          · cases h
          · rename_i hn
            exact .inr (.inl ⟨_, ⟨he, by cases hx : s.halted <;> simp_all,
              .inr ⟨now, rnd, rest, hi, Nat.not_lt.1 hn, rfl⟩⟩, h⟩)
      · exact .inr (.inr ⟨e, rest, rfl, fun now rnd h' => hs ⟨now, rnd, h'⟩, he, h⟩)
    · simp [State.deliver, show s.ended = true by simp_all, show e.isReset = false by simp_all] at h

end Sys2Proof.Machine
end

