-- ==== Sys2Proof/Laws/Timers.lean ====
section
/-!
SUPPORT. What the decay of one timer does, said once.
-/

namespace Sys2Proof.Machine

/-- A timer that is at 0 stays; a running one comes to 0, or loses the whole periods elapsed and keeps the rest. -/
theorem Timer.decay_cases (t : Timer) (period now now' : Nat) (h : t.wf now) :
    (t.value = 0 ∧ t.last = none ∧ t.decay period now' = (t, false)) ∨
    (t.value ≠ 0 ∧ ∃ t0, t.last = some t0 ∧ t0 ≤ now ∧
      ((t.value.toNat ≤ (now' - t0) / period ∧ t.decay period now' = (⟨0, none⟩, true)) ∨
       ((now' - t0) / period < t.value.toNat ∧ ∃ v : Byte, v.toNat = t.value.toNat - (now' - t0) / period ∧ v ≠ 0 ∧
        t.decay period now' = (⟨v, some (t0 + (now' - t0) / period * period)⟩, false)))) := by
  by_cases h0 : t.value = 0
  · exact .inl ⟨h0, h.1.1 h0, by simp [Timer.decay, h0]⟩
  · refine .inr ⟨h0, ?_⟩
    cases hl : t.last with
    | none => exact absurd (h.1.2 hl) h0
    | some t0 =>
      refine ⟨t0, rfl, h.2 t0 hl, ?_⟩
      by_cases hk : t.value.toNat ≤ (now' - t0) / period
      · exact .inl ⟨hk, by simp only [Timer.decay, if_neg h0, hl, if_pos hk]⟩
      · have hlt := t.value.isLt
        have hv : (t.value - BitVec.ofNat 8 ((now' - t0) / period)).toNat = t.value.toNat - (now' - t0) / period := by
          rw [BitVec.toNat_sub_of_le] <;> simp only [BitVec.le_def, BitVec.toNat_ofNat] <;>
            rw [Nat.mod_eq_of_lt (by omega)] <;> omega
        refine .inr ⟨by omega, _, hv, fun hz => ?_, by simp only [Timer.decay, if_neg h0, hl, if_neg hk]⟩
        rw [hz] at hv; simp at hv; omega

end Sys2Proof.Machine
end

