-- ==== Sys2Proof/Laws/Transfers.lean ====
section
/-!
SUPPORT. What the byte stores of `LD B` and the two block transfers do, once for all counts: they complete, or they
raise `AddressBounds` at the first address beyond the memory with the accesses before it done.
-/

namespace Sys2Proof.Machine

theorem word_add_one (w : Word) (h : w.toNat ≤ 0xFFF) : (w + 1).toNat = w.toNat + 1 := by
  rw [BitVec.toNat_add]; simp; omega

theorem ofNat_word_succ (w : Word) (n : Nat) : w + 1 + BitVec.ofNat 16 n = w + BitVec.ofNat 16 (n + 1) := by
  apply BitVec.eq_of_toNat_eq; simp [BitVec.toNat_add]; omega

/-- The bytes of `bytes` at `base + j` and on, the rest of memory as in `s`. -/
def holdsBytes (s t : State) (bytes : List Byte) (base : Nat) : Prop :=
  ∀ a, t.readByte a = if base ≤ a ∧ a < base + bytes.length then bytes.getD (a - base) 0 else s.readByte a

theorem holdsBytes_cons (s t : State) (b : Byte) (rest : List Byte) (base : Nat)
    (h : holdsBytes (s.writeByte base b) t rest (base + 1)) : holdsBytes s t (b :: rest) base := by
  intro a
  rw [h a, State.readByte_writeByte]
  rcases Nat.lt_trichotomy a base with h1 | h1 | h1
  · rw [if_neg (by omega), if_neg (by omega), if_neg (by simp; omega)]
  · subst h1; rw [if_neg (by omega), if_pos rfl, if_pos (by simp)]; simp
  · obtain ⟨k, rfl⟩ : ∃ k, a = base + 1 + k := ⟨a - (base + 1), by omega⟩
    rw [show base + 1 + k - (base + 1) = k by omega, show base + 1 + k - base = k + 1 by omega, List.getD_cons_succ]
    by_cases hk : k < rest.length
    · rw [if_pos (by omega), if_pos (by simp; omega)]
    · rw [if_neg (by omega), if_neg (by omega), if_neg (by simp; omega)]

/-- The bytes stored at ascending addresses: all of them, or those below 0x1000 and the fault at the first beyond. -/
theorem State.storeBytes_cases (bytes : List Byte) (s : State) (j : Nat) (hi : s.i.toNat + j ≤ 0x1000) :
    (s.i.toNat + j + bytes.length ≤ 0x1000 ∧ ∃ t, s.storeBytes bytes j = .done () t ∧
      t = { s with mem := t.mem } ∧ holdsBytes s t bytes (s.i.toNat + j)) ∨
    (0x1000 < s.i.toNat + j + bytes.length ∧ ∃ t, s.storeBytes bytes j = .raised t ∧
      t = { s with mem := t.mem, halted := some (.addressBounds 0x1000) } ∧
      holdsBytes s t (bytes.take (0x1000 - (s.i.toNat + j))) (s.i.toNat + j)) := by
  induction bytes generalizing s j with
  | nil => exact .inl ⟨by simp; omega, s, rfl, rfl, fun a => by rw [if_neg (by simp)]⟩
  | cons b rest ih =>
    rcases s.memWrite_cases (s.indirect j) b with ⟨ha, hw⟩ | ⟨ha, hw⟩ <;> simp only [State.indirect] at ha hw
    · have hi' : (s.writeByte (s.i.toNat + j) b).i.toNat + (j + 1) ≤ 0x1000 := by simp; omega
      have hstep : s.storeBytes (b :: rest) j = (s.writeByte (s.i.toNat + j) b).storeBytes rest (j + 1) := by
        simp only [State.storeBytes, State.indirect, hw]
      rcases ih _ _ hi' with ⟨hl, t, ht, hfr, hb⟩ | ⟨hl, t, ht, hfr, hb⟩ <;>
        simp only [State.writeByte_i, ← Nat.add_assoc] at hl hb
      · exact .inl ⟨by simp; omega, t, hstep ▸ ht, hfr, holdsBytes_cons _ _ _ _ _ hb⟩
      · refine .inr ⟨by simp; omega, t, hstep ▸ ht, hfr, ?_⟩
        rw [show 0x1000 - (s.i.toNat + j) = (0x1000 - (s.i.toNat + j + 1)) + 1 by omega, List.take_succ_cons]
        exact holdsBytes_cons _ _ _ _ _ hb
    · have he : s.i.toNat + j = 0x1000 := by omega
      refine .inr ⟨by simp; omega, s.raise (.addressBounds 0x1000), ?_, rfl, ?_⟩
      · simp only [State.storeBytes, State.indirect, hw]; rw [he]
      · rw [he]; intro a; rw [if_neg (by simp)]; rfl

/-- The registers from `Vj` on that a block transfer of `count` registers moves, in order. -/
def State.regBytes (s : State) (count j : Nat) : List Byte := (List.range' j count).map fun k => s.getV (Fin.ofNat 16 k)

/-- The block store: all registers stored and `I` moved past them, or those below 0x1000 stored, `I` left at 0x1000
and the fault raised there. -/
theorem State.storeBlock_cases (count : Nat) (s : State) (j : Nat) (hi : s.i.toNat ≤ 0x1000) :
    (s.i.toNat + count ≤ 0x1000 ∧ ∃ t, s.storeBlock count j = .done () t ∧
      t = { s with mem := t.mem, i := s.i + BitVec.ofNat 16 count } ∧
      holdsBytes s t (s.regBytes count j) s.i.toNat) ∨
    (0x1000 < s.i.toNat + count ∧ ∃ t, s.storeBlock count j = .raised t ∧
      t = { s with mem := t.mem, i := 0x1000, halted := some (.addressBounds 0x1000) } ∧
      holdsBytes s t ((s.regBytes count j).take (0x1000 - s.i.toNat)) s.i.toNat) := by
  induction count generalizing s j with
  | zero =>
    refine .inl ⟨by omega, s, rfl, ?_, fun a => by rw [if_neg (by simp [State.regBytes])]⟩
    simp
  | succ count ih =>
    rcases s.memWrite_cases s.i.toNat (s.getV (Fin.ofNat 16 j)) with ⟨ha, hw⟩ | ⟨ha, hw⟩
    · have hi1 := word_add_one s.i ha
      have hstep : s.storeBlock (count + 1) j =
          ((s.writeByte s.i.toNat (s.getV (Fin.ofNat 16 j))).setI (s.i + 1)).storeBlock count (j + 1) := by
        simp only [State.storeBlock, hw, State.writeByte_i]
      have hregs : s.regBytes (count + 1) j = s.getV (Fin.ofNat 16 j) ::
          ((s.writeByte s.i.toNat (s.getV (Fin.ofNat 16 j))).setI (s.i + 1)).regBytes count (j + 1) := by
        simp [State.regBytes, List.range'_succ]
      rcases ih ((s.writeByte s.i.toNat (s.getV (Fin.ofNat 16 j))).setI (s.i + 1)) (j + 1) (by simp only [State.setI_i, hi1]; omega) with
        ⟨hl, t, ht, hfr, hb⟩ | ⟨hl, t, ht, hfr, hb⟩ <;> simp only [State.setI_i, hi1] at hl hb
      · refine .inl ⟨by omega, t, hstep ▸ ht, ?_, ?_⟩
        · rw [hfr]; simp [State.setI, State.writeByte]; exact ofNat_word_succ _ _
        · rw [hregs]; exact holdsBytes_cons _ _ _ _ _ hb
      · refine .inr ⟨by omega, t, hstep ▸ ht, ?_, ?_⟩
        · rw [hfr]; simp [State.setI, State.writeByte]
        · rw [hregs, show 0x1000 - s.i.toNat = (0x1000 - (s.i.toNat + 1)) + 1 by omega, List.take_succ_cons]
          exact holdsBytes_cons _ _ _ _ _ hb
    · have he : s.i.toNat = 0x1000 := by omega
      have hw' : s.i = 0x1000 := BitVec.eq_of_toNat_eq (by simpa using he)
      refine .inr ⟨by omega, s.raise (.addressBounds 0x1000), ?_, ?_, ?_⟩
      · simp only [State.storeBlock, hw]; rw [he]
      · simp [State.raise, hw'.symm]
      · rw [he]; intro a; rw [if_neg (by simp)]; rfl

/-- The block load: all registers loaded and `I` moved past them, or those whose bytes lie below 0x1000 loaded, `I`
left at 0x1000 and the fault raised there. -/
theorem State.loadBlock_cases (count : Nat) (s : State) (j : Nat) (hj : j + count ≤ 16) (hi : s.i.toNat ≤ 0x1000) :
    (s.i.toNat + count ≤ 0x1000 ∧ ∃ t, s.loadBlock count j = .done () t ∧
      t = { s with v := t.v, i := s.i + BitVec.ofNat 16 count } ∧
      ∀ r : Reg, t.getV r = if j ≤ r.val ∧ r.val < j + count then s.readByte (s.i.toNat + (r.val - j)) else s.getV r) ∨
    (0x1000 < s.i.toNat + count ∧ ∃ t, s.loadBlock count j = .raised t ∧
      t = { s with v := t.v, i := 0x1000, halted := some (.addressBounds 0x1000) } ∧
      ∀ r : Reg, t.getV r = if j ≤ r.val ∧ r.val < j + (0x1000 - s.i.toNat)
        then s.readByte (s.i.toNat + (r.val - j)) else s.getV r) := by
  induction count generalizing s j with
  | zero =>
    refine .inl ⟨by omega, s, rfl, by simp, fun r => by rw [if_neg (by omega)]⟩
  | succ count ih =>
    rcases s.memRead_cases s.i.toNat with ⟨ha, hw⟩ | ⟨ha, hw⟩
    · have hi1 := word_add_one s.i ha
      have hstep : s.loadBlock (count + 1) j =
          ((s.setV (Fin.ofNat 16 j) (s.readByte s.i.toNat)).setI (s.i + 1)).loadBlock count (j + 1) := by
        simp only [State.loadBlock, hw]
      have hr : ∀ r : Reg, r = Fin.ofNat 16 j ↔ r.val = j := by
        intro r; rw [Fin.ext_iff, Fin.val_ofNat, Nat.mod_eq_of_lt (by omega)]
      rcases ih ((s.setV (Fin.ofNat 16 j) (s.readByte s.i.toNat)).setI (s.i + 1)) (j + 1) (by omega)
        (by simp only [State.setI_i, hi1]; omega) with ⟨hl, t, ht, hfr, hb⟩ | ⟨hl, t, ht, hfr, hb⟩ <;>
        simp only [State.setI_i, hi1, State.readByte_setI, State.readByte_setV, State.getV_setI, State.getV_setV,
          hr] at hl hb
      · refine .inl ⟨by omega, t, hstep ▸ ht, ?_, fun r => ?_⟩
        · rw [hfr]; simp [State.setI, State.setV]; exact ofNat_word_succ _ _
        · rw [hb r]
          rcases Nat.lt_trichotomy r.val j with h1 | h1 | h1
          · rw [if_neg (by omega), if_neg (by omega), if_neg (by omega)]
          · rw [if_neg (by omega), if_pos h1, if_pos (by omega), h1]; simp
          · by_cases h2 : r.val < j + 1 + count
            · rw [if_pos (by omega), if_pos (by omega)]; congr 1; omega
            · rw [if_neg (by omega), if_neg (by omega), if_neg (by omega)]
      · refine .inr ⟨by omega, t, hstep ▸ ht, ?_, fun r => ?_⟩
        · rw [hfr]; simp [State.setI, State.setV]
        · rw [hb r]
          rcases Nat.lt_trichotomy r.val j with h1 | h1 | h1
          · rw [if_neg (by omega), if_neg (by omega), if_neg (by omega)]
          · rw [if_neg (by omega), if_pos h1, if_pos (by omega), h1]; simp
          · by_cases h2 : r.val < j + (0x1000 - s.i.toNat)
            · rw [if_pos (by omega), if_pos (by omega)]; congr 1; omega
            · rw [if_neg (by omega), if_neg (by omega), if_neg (by omega)]
    · have he : s.i.toNat = 0x1000 := by omega
      have hw' : s.i = 0x1000 := BitVec.eq_of_toNat_eq (by simpa using he)
      refine .inr ⟨by omega, s.raise (.addressBounds 0x1000), ?_, ?_, fun r => ?_⟩
      · simp only [State.loadBlock, hw]; rw [he]
      · simp [State.raise, hw'.symm]
      · rw [if_neg (by omega)]; rfl

/-- The byte stores change memory and, where they fault, the latch: for every `I`. -/
theorem State.storeBytes_frame (bytes : List Byte) (s : State) (j : Nat) :
    (∃ t, s.storeBytes bytes j = .done () t ∧ t = { s with mem := t.mem }) ∨
    ∃ t f, s.storeBytes bytes j = .raised t ∧ t = { s with mem := t.mem, halted := some f } := by
  induction bytes generalizing s j with
  | nil => exact .inl ⟨s, rfl, rfl⟩
  | cons b rest ih =>
    rcases s.memWrite_cases (s.indirect j) b with ⟨_, h⟩ | ⟨_, h⟩ <;> simp only [State.storeBytes, h]
    · rcases ih (s.writeByte (s.indirect j) b) (j + 1) with ⟨t, ht, hf⟩ | ⟨t, f, ht, hf⟩
      · exact .inl ⟨t, ht, by rw [hf]; rfl⟩
      · exact .inr ⟨t, f, ht, by rw [hf]; rfl⟩
    · exact .inr ⟨_, _, rfl, rfl⟩

/-- The block store changes memory, `I` and, where it faults, the latch: for every `I`. -/
theorem State.storeBlock_frame (count : Nat) (s : State) (j : Nat) :
    (∃ t, s.storeBlock count j = .done () t ∧ t = { s with mem := t.mem, i := t.i }) ∨
    ∃ t f, s.storeBlock count j = .raised t ∧ t = { s with mem := t.mem, i := t.i, halted := some f } := by
  induction count generalizing s j with
  | zero => exact .inl ⟨s, rfl, rfl⟩
  | succ count ih =>
    rcases s.memWrite_cases s.i.toNat (s.getV (Fin.ofNat 16 j)) with ⟨_, h⟩ | ⟨_, h⟩ <;>
      simp only [State.storeBlock, h]
    · rcases ih ((s.writeByte s.i.toNat (s.getV (Fin.ofNat 16 j))).setI (s.i + 1)) (j + 1) with
        ⟨t, ht, hf⟩ | ⟨t, f, ht, hf⟩
      · exact .inl ⟨t, ht, by rw [hf]; rfl⟩
      · exact .inr ⟨t, f, ht, by rw [hf]; rfl⟩
    · exact .inr ⟨_, _, rfl, rfl⟩

/-- The block load changes the registers from `Vj` on, `I` and, where it faults, the latch: for every `I`. -/
theorem State.loadBlock_frame (count : Nat) (s : State) (j : Nat) (hj : j + count ≤ 16) :
    (∃ t, s.loadBlock count j = .done () t ∧ t = { s with v := t.v, i := t.i } ∧
      ∀ r : Reg, ¬(j ≤ r.val ∧ r.val < j + count) → t.getV r = s.getV r) ∨
    ∃ t f, s.loadBlock count j = .raised t ∧ t = { s with v := t.v, i := t.i, halted := some f } ∧
      ∀ r : Reg, ¬(j ≤ r.val ∧ r.val < j + count) → t.getV r = s.getV r := by
  induction count generalizing s j with
  | zero => exact .inl ⟨s, rfl, rfl, fun _ _ => rfl⟩
  | succ count ih =>
    have hreg : ∀ r : Reg, ¬(j ≤ r.val ∧ r.val < j + (count + 1)) →
        ((s.setV (Fin.ofNat 16 j) (s.readByte s.i.toNat)).setI (s.i + 1)).getV r = s.getV r := by
      intro r hr
      rw [State.getV_setI, State.getV_setV, if_neg]
      intro h; apply hr; rw [h]; simp; omega
    rcases s.memRead_cases s.i.toNat with ⟨_, h⟩ | ⟨_, h⟩ <;> simp only [State.loadBlock, h]
    · rcases ih ((s.setV (Fin.ofNat 16 j) (s.readByte s.i.toNat)).setI (s.i + 1)) (j + 1) (by omega) with
        ⟨t, ht, hf, hr⟩ | ⟨t, f, ht, hf, hr⟩
      · exact .inl ⟨t, ht, by rw [hf]; rfl, fun r h => by rw [hr r (by omega), hreg r h]⟩
      · exact .inr ⟨t, f, ht, by rw [hf]; rfl, fun r h => by rw [hr r (by omega), hreg r h]⟩
    · exact .inr ⟨_, _, rfl, rfl, fun _ _ => rfl⟩

end Sys2Proof.Machine
end

