-- ==== Sys2Proof/Tests/Slice0.lean ====
section
/-!
SUPPORT. Tests. Expected values are the spec's (spec/95_test_vectors.md, its vectors S, T1 to T8) or are worked by hand
from the rule a comment names; the witnesses at the end show that the hypotheses of the statements can be met.
-/

namespace Sys2Proof.Tests

open Sys2Proof.Machine

/-! ### Small states -/

/-- A small machine: a display of 16 by 4 cells, a stack of 2, a timer period of 100, the quirks all off or all on. -/
def small (quirks : Bool) : State :=
  State.fresh { quirkShiftVy := quirks, quirkIncI := quirks, quirkLogicVf0 := quirks, stackDepth := some 2,
                displayW := 16, displayH := 4, timerPeriod := 100, instrRateHz := 500, displayRateRatio := 8,
                font := Config.conventionalFont }

/-- Registers set. -/
def regs (s : State) (l : List (Reg × Byte)) : State := l.foldl (fun t p => t.setV p.1 p.2) s

/-- Memory bytes set. -/
def bytes (s : State) (l : List (Nat × Byte)) : State := l.foldl (fun t p => t.writeByte p.1 p.2) s

/-- One instruction word decoded and executed. -/
def run (op : Word) (s : State) : State :=
  match decodeOpcode op with
  | some ins => match exec ins s with
    | .next t => t
    | .fault _ | .refused _ => s
  | none => s

/-- Events delivered one after another. -/
def after (s : State) : List Event → State
  | [] => s
  | e :: rest => match s.deliver e with
    | .next t => after t rest
    | .fault _ | .refused _ => s

/-! ### Syntax, well-formedness and decoding -/

theorem test_wf_refuses_a_wide_row_count : (Instr.drw 0 0 16).wf = false := by decide

theorem test_wf_accepts_fifteen_rows : (Instr.drw 15 15 15).wf = true := by decide

/-- T1; the fields of spec/30_encoding.md R71. -/
theorem test_decode_system_and_flow :
    [0x00E0, 0x00EE, 0x120C, 0x2210, 0xB300].map (fun w => decodeOpcode (BitVec.ofNat 16 w)) =
      [some .cls, some .ret, some (.jp 0x20C), some (.call 0x210), some (.jpV0 0x300)] := by decide

theorem test_decode_skips :
    [0x3100, 0x41FF, 0x5013, 0x9FE7, 0xE39E, 0xE0A1].map (fun w => decodeOpcode (BitVec.ofNat 16 w)) =
      [some (.seImm 1 0x00), some (.sneImm 1 0xFF), some (.seReg 0 1), some (.sneReg 15 14), some (.skp 3),
       some (.sknp 0)] := by decide

theorem test_decode_immediates :
    [0x6A7F, 0x7302, 0xC00F, 0xAFFF, 0xD12F].map (fun w => decodeOpcode (BitVec.ofNat 16 w)) =
      [some (.ldImm 10 0x7F), some (.addImm 3 0x02), some (.rnd 0 0x0F), some (.ldI 0xFFF),
       some (.drw 1 2 15)] := by decide

theorem test_decode_class_eight :
    [0x8AB0, 0x8AB1, 0x8AB2, 0x8AB3, 0x8AB4, 0x8AB5, 0x8AB6, 0x8AB7, 0x8ABE].map
      (fun w => decodeOpcode (BitVec.ofNat 16 w)) =
      [some (.ldReg 10 11), some (.or 10 11), some (.and 10 11), some (.xor 10 11), some (.addReg 10 11),
       some (.sub 10 11), some (.shr 10 11), some (.subn 10 11), some (.shl 10 11)] := by decide

theorem test_decode_class_f :
    [0xF507, 0xFF0A, 0xF015, 0xF118, 0xF01E, 0xF029, 0xF033, 0xF255, 0xF265].map
      (fun w => decodeOpcode (BitVec.ofNat 16 w)) =
      [some (.ldVxDt 5), some (.ldVxK 15), some (.ldDtVx 0), some (.ldStVx 1), some (.addI 0), some (.ldF 0),
       some (.ldB 0), some (.storeRegs 2), some (.loadRegs 2)] := by decide

/-- T1 and spec/30_encoding.md R75 to R78: the illegal words, at the edges of their ranges. -/
theorem test_decode_refuses :
    ([0x0000, 0x00E1, 0x00DF, 0x0200, 0x0FFF, 0x8AB8, 0x8ABD, 0x8ABF, 0xE39F, 0xE0A0, 0xF275, 0xF000, 0xFFFF].map
      (fun w => decodeOpcode (BitVec.ofNat 16 w))).all (·.isNone) = true := by decide

/-- T2: the high byte stands first. -/
theorem test_decode_byte_order : decode [0x12, 0x34] = .ok (.jp 0x234, []) := rfl

theorem test_decode_keeps_the_rest : decode [0x00, 0xE0, 0xAA] = .ok (.cls, [0xAA]) := rfl

/-- spec/30_encoding.md R72: a word needs two bytes. -/
theorem test_decode_short : (decode [0x12]).toOption = none := rfl

theorem test_encode_bytes : encode (.drw 1 2 15) = [0xD1, 0x2F] := by decide

theorem test_table_word : decodeTableWord 16 0xD12F = some (.drw 1 2 15) := by decide

/-! ### Arithmetic and logic (T3) -/

theorem test_T3_1_load_to_vf : (run 0x6FAB (regs (small false) [(15, 1)])).getV 15 = 0xAB := by decide

theorem test_T3_2_add_wraps_without_flag :
    let t := run 0x7302 (regs (small false) [(3, 0xFF)]); t.getV 3 = 0x01 ∧ t.getV 15 = 0 ∧ t.pc = 0x202 := by decide

theorem test_T3_5_copy : (run 0x8010 (regs (small false) [(1, 0x37)])).getV 0 = 0x37 := by decide

theorem test_T3_6_or :
    [false, true].map (fun q =>
      let t := run 0x8011 (regs (small q) [(0, 0x0C), (1, 0x0A), (15, 1)]); (t.getV 0, t.getV 15)) =
      [(0x0E, 1), (0x0E, 0)] := by decide

theorem test_T3_9_or_to_vf :
    [false, true].map (fun q => (run 0x8F11 (regs (small q) [(15, 0x10), (1, 0x01)])).getV 15) = [0x11, 0] := by
  decide

theorem test_T3_7_and :
    [false, true].map (fun q =>
      let t := run 0x8012 (regs (small q) [(0, 0x0C), (1, 0x0A), (15, 1)]); (t.getV 0, t.getV 15)) =
      [(0x08, 1), (0x08, 0)] := by decide

theorem test_T3_8_xor :
    [false, true].map (fun q =>
      let t := run 0x8013 (regs (small q) [(0, 0x0C), (1, 0x0A), (15, 1)]); (t.getV 0, t.getV 15)) =
      [(0x06, 1), (0x06, 0)] := by decide

theorem test_T3_13_add_clears_the_flag :
    let t := run 0x8014 (regs (small false) [(0, 0x80), (1, 0x7F), (15, 1)]); t.getV 0 = 0xFF ∧ t.getV 15 = 0 := by
  decide

theorem test_T3_15_add_to_vf : (run 0x8F14 (regs (small false) [(15, 0xF0), (1, 0x20)])).getV 15 = 1 := by decide

theorem test_T3_19_sub_equal :
    let t := run 0x8015 (regs (small false) [(0, 5), (1, 5)]); t.getV 0 = 0 ∧ t.getV 15 = 1 := by decide

theorem test_T3_23_sub_reads_vf_first :
    let t := run 0x80F5 (regs (small false) [(0, 3), (15, 5)]); t.getV 0 = 0xFE ∧ t.getV 15 = 0 := by decide

theorem test_T3_25_subn :
    let t := run 0x8017 (regs (small false) [(0, 3), (1, 5)]); t.getV 0 = 2 ∧ t.getV 15 = 1 := by decide

theorem test_T3_26_subn_borrow :
    let t := run 0x8017 (regs (small false) [(0, 5), (1, 3)]); t.getV 0 = 0xFE ∧ t.getV 15 = 0 := by decide

theorem test_T3_29_T3_30_shr :
    [false, true].map (fun q =>
      let t := run 0x8236 (regs (small q) [(2, 0x05), (3, 0x81)]); (t.getV 2, t.getV 3, t.getV 15)) =
      [(0x02, 0x81, 1), (0x40, 0x81, 1)] := by decide

theorem test_T3_33_shr_vf : (run 0x8F06 (regs (small false) [(15, 0x03)])).getV 15 = 1 := by decide

theorem test_T3_37_T3_38_shl :
    [false, true].map (fun q =>
      let t := run 0x823E (regs (small q) [(2, if q then 0xFF else 0x40), (3, 0x40)]); (t.getV 2, t.getV 15)) =
      [(0x80, 0), (0x80, 0)] := by decide

theorem test_T3_40_shl_vf : (run 0x8F0E (regs (small false) [(15, 0x80)])).getV 15 = 1 := by decide

theorem test_T3_42_rnd : (run 0xC00F { small false with stepRnd := some 0xB7 }).getV 0 = 0x07 := by decide

/-! ### Control flow (T4) -/

theorem test_T4_1_se_taken : (run 0x3100 { small false with pc := 0x208 }).pc = 0x20C := by decide

theorem test_T4_4_sne_not_taken : (run 0x4100 { small false with pc := 0x208 }).pc = 0x20A := by decide

theorem test_T4_6_se_registers : (run 0x5013 (regs (small false) [(0, 0x42), (1, 0x42)])).pc = 0x204 := by decide

theorem test_T4_8_sne_registers : (run 0x9010 (regs (small false) [(0, 1), (1, 2)])).pc = 0x204 := by decide

theorem test_T4_15_jump_to_the_top : (run 0x1FFF (small false)).pc = 0xFFF := by decide

theorem test_T4_18_jump_v0 : (run 0xB300 (regs (small false) [(0, 4)])).pc = 0x304 := by decide

theorem test_T4_19_jump_v0_unreduced : (run 0xBFFF (regs (small false) [(0, 0xFF)])).pc = 0x10FE := by decide

theorem test_T4_21_call :
    let t := run 0x2210 { small false with pc := 0x204 }; t.stack = [0x206] ∧ t.pc = 0x210 := by decide

theorem test_T4_24_call_full :
    let t := run 0x2300 { small false with stack := [0x202, 0x202] }
    t.halted = some (.stackOverflow 0x200) ∧ t.pc = 0x200 ∧ t.stack.length = 2 := by decide

theorem test_T4_22_return :
    let t := run 0x00EE { small false with pc := 0x212, stack := [0x206] }; t.stack = [] ∧ t.pc = 0x206 := by decide

theorem test_T4_23_return_empty :
    let t := run 0x00EE (small false); t.halted = some (.stackUnderflow 0x200) ∧ t.pc = 0x200 := by decide

/-! ### Index register and memory (T5) -/

theorem test_T5_1_load_i : (run 0xAFFF (small false)).i = 0xFFF := by decide

theorem test_T5_2_add_i_wraps :
    let t := run 0xF01E (regs { small false with i := 0xFFF } [(0, 1)]); t.i = 0 ∧ t.getV 15 = 0 := by decide

theorem test_T5_4_add_i_above : (run 0xF01E { small false with i := 0x1000 }).i = 0 := by decide

theorem test_S3_font : (run 0xF029 (regs (small false) [(0, 0x0A)])).i = 50 := by decide

theorem test_T5_8_font_whole_register :
    let t := run 0xF029 (regs (small false) [(0, 0xFA)]); t.halted = some (.invalidDigit 0xFA) ∧ t.pc = 0x200 := by
  decide

theorem test_T5_9_bcd :
    let t := run 0xF033 (regs { small false with i := 0x300 } [(0, 254)])
    [t.readByte 0x300, t.readByte 0x301, t.readByte 0x302] = [2, 5, 4] := by decide

theorem test_T5_15_bcd_part_way :
    let t := run 0xF033 (regs { small false with i := 0xFFE } [(0, 123)])
    [t.readByte 0xFFE, t.readByte 0xFFF] = [1, 2] ∧ t.halted = some (.addressBounds 0x1000) ∧ t.pc = 0x200 := by
  decide

theorem test_T5_16_store :
    [false, true].map (fun q =>
      let t := run 0xF255 (regs { small q with i := 0x300 } [(0, 11), (1, 22), (2, 33)])
      ([t.readByte 0x300, t.readByte 0x301, t.readByte 0x302], t.i)) =
      [([11, 22, 33], 0x300), ([11, 22, 33], 0x303)] := by decide

theorem test_T5_20_store_part_way :
    let t := run 0xF255 (regs { small false with i := 0xFFE } [(0, 0xAA), (1, 0xBB)])
    [t.readByte 0xFFE, t.readByte 0xFFF] = [0xAA, 0xBB] ∧ t.halted = some (.addressBounds 0x1000) ∧
      t.i = 0x1000 := by decide

theorem test_T5_23_load_font :
    let t := run 0xF465 (small false)
    [t.getV 0, t.getV 1, t.getV 2, t.getV 3, t.getV 4] = [0xF0, 0x90, 0x90, 0x90, 0xF0] := by decide

theorem test_T5_25_load_part_way :
    let t := run 0xF265 (regs (bytes { small false with i := 0xFFE } [(0xFFE, 1), (0xFFF, 2)]) [(2, 0x77)])
    [t.getV 0, t.getV 1, t.getV 2] = [1, 2, 0x77] ∧ t.halted = some (.addressBounds 0x1000) ∧ t.i = 0x1000 := by
  decide

/-! ### Keys (T6) -/

/-- Every key down. -/
def allKeys : State := { small false with keys := Vector.replicate 16 true }

theorem test_T6_1_skp : (run 0xE09E (regs allKeys [(0, 5)])).pc = 0x204 := by decide

theorem test_T6_3_skp_no_such_key : (run 0xE09E (regs allKeys [(0, 0x15)])).pc = 0x202 := by decide

theorem test_T6_5_sknp : (run 0xE0A1 (regs allKeys [(0, 5)])).pc = 0x202 := by decide

theorem test_T6_6_sknp_no_such_key : (run 0xE0A1 (regs allKeys [(0, 0xFF)])).pc = 0x204 := by decide

/-- `LD V3, K` at 0x200. -/
def waitProgram : State := bytes (small false) [(0x200, 0xF3), (0x201, 0x0A)]

theorem test_T6_7_held_key_does_not_count :
    let t := after waitProgram [.keyDown 4, .step 1 0, .step 2 0, .keyUp 4]
    t.wait = .awaitingPress ∧ t.pc = 0x200 ∧ t.getV 3 = 0 ∧ t.keys[4] = false := by decide

theorem test_T6_10_foreign_key_up :
    let t := after waitProgram [.step 0 0, .keyDown 1, .keyDown 1, .keyUp 2, .keyUp 1]
    t.wait = .idle ∧ t.pc = 0x202 ∧ t.getV 3 = 1 := by decide

/-! ### Timers (T7) -/

theorem test_T7_1_set_delay :
    (run 0xF015 (regs { small false with now := 1000, stepRnd := some 0 } [(0, 0x3C)])).dt = ⟨60, some 1000⟩ := by
  decide

theorem test_T7_2_set_delay_zero :
    (run 0xF015 { small false with now := 1000, stepRnd := some 0, dt := ⟨9, some 950⟩ }).dt = ⟨0, none⟩ := by decide

theorem test_T7_3_read_delay : (run 0xF507 { small false with dt := ⟨0x2A, some 0⟩ }).getV 5 = 0x2A := by decide

theorem test_T7_11_set_sound :
    let t := run 0xF118 (regs { small false with now := 500, stepRnd := some 0 } [(1, 2)])
    t.st = ⟨2, some 500⟩ ∧ t.audio = [.toneOn] := by decide

theorem test_T7_13_sound_zero :
    (run 0xF118 { small false with stepRnd := some 0, st := ⟨9, some 0⟩ }).audio = [.toneOff] := by decide

theorem test_T7_4_T7_6_ticks :
    let s := { small false with dt := ⟨3, some 0⟩ }
    (after s [.timerTick 150]).dt = ⟨2, some 100⟩ ∧ (after s [.timerTick 150, .timerTick 190, .timerTick 320]).dt = ⟨0, none⟩ := by
  decide

theorem test_T7_10_independent_phases :
    let t := after { small false with dt := ⟨5, some 0⟩, st := ⟨1, some 120⟩ } [.timerTick 250]
    t.dt = ⟨3, some 200⟩ ∧ t.st = ⟨0, none⟩ ∧ t.audio = [.toneOff] := by decide

/-! ### Display (T8, on 16 by 4 cells: the anchors and clips are those of spec/45_display.md R213 for that size) -/

/-- A cleared, presented display and a sprite byte at 0x300. -/
def canvas (b : Byte) : State :=
  let s := bytes { small false with i := 0x300 } [(0x300, b)]
  { s with display := s.display.presented }

theorem test_T8_1_cls :
    let t := run 0x00E0 (regs (canvas 0) [(15, 7)])
    t.display.dirtyRects = [⟨0, 0, 16, 4⟩] ∧ t.display.clearPending = true ∧ t.getV 15 = 7 ∧
      t.display.dirtyRows = [true, true, true, true] := by decide

theorem test_T8_2_msb_is_leftmost :
    let t := run 0xD011 (canvas 0x80)
    t.pixel 0 0 = true ∧ t.pixel 7 0 = false ∧ t.getV 15 = 0 ∧ t.display.dirtyRects = [⟨0, 0, 8, 1⟩] := by decide

/-- T8.6: both clips, the anchor reduced to (15, 3). -/
theorem test_T8_6_clipped :
    let t := run 0xD011 (regs (canvas 0xFF) [(0, 0xFF), (1, 0xFF)])
    t.pixel 15 3 = true ∧ t.pixel 0 3 = false ∧ t.pixel 0 0 = false ∧ t.display.dirtyRects = [⟨15, 3, 1, 1⟩] := by
  decide

theorem test_T8_9_collision :
    let t := run 0xD011 (bytes (run 0xD011 (canvas 0x80)) [(0x300, 0xC0)])
    t.pixel 0 0 = false ∧ t.pixel 1 0 = true ∧ t.getV 15 = 1 := by decide

theorem test_T8_12_part_way :
    let t := run 0xD013 (bytes (regs { canvas 0 with i := 0xFFE } [(15, 9), (2, 0)]) [(0xFFE, 0x80), (0xFFF, 0x80)])
    t.pixel 0 0 = true ∧ t.pixel 0 1 = true ∧ t.getV 15 = 9 ∧ t.display.dirtyRects = [] ∧
      t.display.dirtyRows = [true, true, false, false] ∧ t.halted = some (.addressBounds 0x1000) := by decide

/-! ### The instruction cycle and the events -/

/-- S1, its first step: the byte order and the cycle. -/
theorem test_S1_step :
    let t := after (small false) [.reset [0x60, 0x0A, 0x70, 0x05], .step 0 0]; t.getV 0 = 0x0A ∧ t.pc = 0x202 := by decide

/-- P1: the fetch of 00 00 faults and the next step changes nothing. -/
theorem test_P1_invalid_opcode :
    let t := after (small false) [.reset [], .step 0 0, .step 1 0]
    t.halted = some (.invalidOpcode 0) ∧ t.pc = 0x200 ∧ t.now = 0 := by decide

/-- T4.16. -/
theorem test_fetch_below_the_program :
    (after { small false with pc := 0x1FE } [.step 0 0]).halted = some (.addressBounds 0x1FE) := by decide

/-- spec/60_exceptions.md R240. -/
theorem test_fault_codes :
    [FaultRecord.invalidOpcode 0, .addressBounds 0, .stackUnderflow 0, .stackOverflow 0, .invalidDigit 0].map
      FaultRecord.code = [1, 2, 3, 4, 5] := by decide

/-- T8.16: `Present` returns the display with its tracking, then clears the tracking. -/
theorem test_present :
    let s := run 0xD011 (canvas 0x80)
    let t := after s [.present]
    t.replies = [.frame s.display] ∧ t.display.dirtyRects = [] ∧ t.display.dirtyRows = [false, false, false, false] := by
  decide

/-- spec/10_state.md R26: a `Snapshot` shows the display buffer too. -/
theorem test_snapshot_shows_the_display :
    let s := run 0xD011 (canvas 0x80); (s.debugDump.fb.take 2, s.debugDump.pc, s.debugDump.fb.length) = ([true, false], 0x202, 64) := by
  decide

theorem test_quit : (after (small false) [.quit, .keyDown 1]).keys[1] = false := by decide

/-- The host's word stands at `PC`, high byte first, and the next step executes it. -/
theorem test_with_fetch_word : ∃ t, step (State.reset.withFetchWord 16 0x6A7F) = .next t ∧ t.getV 10 = 0x7F :=
  ⟨_, rfl, rfl⟩

/-! ### Witnesses: states that meet the hypotheses of the statements, at the boundaries of their clauses -/

/-- The invariant of the small machine at `LD V3, K`, its wait for the release of key 4 under way. -/
def waitingState : State := { waitProgram with wait := .awaitingRelease 4 }

theorem witness_invariant : waitingState.Inv where
  config := by decide
  memory := by decide
  display := by decide
  delay := by decide
  sound := by decide
  index := by decide
  counter := by decide
  depth := by decide
  returns := fun a h => absurd (show a ∈ ([] : List Word) from h) List.not_mem_nil
  waiting := fun _ => ⟨rfl, by decide, 3, by decide⟩
  tone := by decide

/-- `StepKeepsTheInvariant`, `ConfigurationIsFixedAndClockMonotone`: a step that follows, free or delivered. -/
theorem witness_step_next :
    waitingState.Inv ∧ (∃ t, step waitingState = .next t) ∧ ∃ t, step { waitingState with inbox := [.keyUp 4] } = .next t :=
  ⟨witness_invariant, ⟨_, rfl⟩, ⟨_, rfl⟩⟩

/-- `StepsDuringAWaitChangeNothing`: both clauses. -/
theorem witness_wait :
    waitingState.wait ≠ .idle ∧ waitingState.ended = false ∧ waitingState.inbox = [] ∧
      ({ waitingState with inbox := [.step 0 7] }).Inv ∧ waitingState.now ≤ 0 :=
  ⟨by decide, rfl, rfl, { witness_invariant with }, by decide⟩

/-- `DecodeEncodeRoundTrip`, `EncodeDecodeCanonical`, `DecoderFollowsOpcodeMap`. -/
theorem witness_encoding :
    (Instr.drw 15 0 15).wf = true ∧ decodeOpcode 0x5013 = some (.seReg 0 1) ∧ canonicalOpcode 0x5013 = 0x5010 ∧
      (0x5013 : Word) &&& (Instr.seReg 7 7).tableMask = (Instr.seReg 7 7).tableMatch := by decide

/-- `IllegalWordsAreRefused`: each clause has a word, and a legal word is in none. -/
theorem witness_illegal :
    (fieldClass 0x00E1 = 0x0 ∧ (0x00E1 : Word) ≠ 0x00E0 ∧ (0x00E1 : Word) ≠ 0x00EE) ∧
    (fieldClass 0x8AB8 = 0x8 ∧ fieldN 0x8AB8 = 0x8) ∧ (fieldClass 0xE39F = 0xE ∧ slice 0xE39F 7 0 = 0x9F) ∧
    (fieldClass 0xF275 = 0xF ∧ slice 0xF275 7 0 = 0x75) ∧ (fieldClass 0x8ABE = 0x8 ∧ fieldN 0x8ABE = 0xE) := by decide

/-- `StepRunsTheDecodedInstruction`: at the last address a fetch accepts, both clauses. -/
theorem witness_fetch :
    let s := bytes { small false with pc := 0xFFE } [(0xFFE, 0xF3), (0xFFF, 0x0A)]
    s.halted = none ∧ s.ended = false ∧ s.fetchable ∧ s.inbox = [] ∧ s.now ≤ 0 ∧ (Instr.ldVxK 3).wf = true ∧
      s.wordAtPc = 0xF30A ∧ decodeOpcode 0xF30A = some (.ldVxK 3) := by decide

theorem witness_fetch_bytes : decode [0xF3, 0x0A] = .ok (.ldVxK 3, []) := rfl

/-- `FetchAndDecodeFaults`, `FinishedProgramStays`, the next fetch of `RegisterSkipsResult` and `JumpResult`: a free `Step`
and a queued one, with `PC` at any place. -/
theorem witness_takes_step (pc : Word) :
    let s := { small false with pc := pc }
    let q := { s with inbox := [.step 0 7, .present] }
    s.takesStep { s with stepRnd := none } ∧ q.takesStep { q with inbox := [.present], now := 0, stepRnd := some 7 } :=
  ⟨⟨rfl, rfl, .inl ⟨rfl, rfl⟩⟩, ⟨rfl, rfl, .inr ⟨0, 7, [.present], rfl, Nat.le_refl _, rfl⟩⟩⟩

/-- `FetchAndDecodeFaults`: both ends of the range from outside, and an illegal word at each end inside. -/
theorem witness_fetch_faults :
    (0x1FF : Word).toNat < 0x200 ∧ (0xFFF : Word).toNat > 0xFFE ∧
      ({ small false with pc := 0x200 }).fetchable ∧ ({ small false with pc := 0xFFE }).fetchable ∧
      ({ small false with pc := 0xFFE }).wordAtPc = 0x0000 ∧ decodeOpcode 0x0000 = none := by decide

/-- `LogicResults`, `SubtractResults`, `ShiftResults`: data computed from the operands, for each instruction. -/
theorem witness_alu :
    let s := regs (small true) [(15, 0x80), (1, 0x03)]
    s.getV 15 ||| s.getV 1 = 0x83 ∧ s.getV 15 &&& s.getV 1 = 0 ∧ s.getV 15 ^^^ s.getV 1 = 0x83 ∧
      (s.getV 15).toNat = 128 ∧ (s.getV 1).toNat = 3 ∧
      3 = (if s.cfg.quirkShiftVy = true then s.getV 1 else s.getV 15).toNat := by decide

/-- `FinishedProgramStays` (T4.13). -/
theorem witness_program_ended :
    let s := bytes (small false) [(0x200, 0x12), (0x201, 0x00)]
    s.programEnded ∧ s.fetchable ∧ s.takesStep { s with stepRnd := none } ∧
      ({ s with inbox := [.step 5 0] }).takesStep { s with inbox := [], now := 5, stepRnd := some 0 } :=
  ⟨⟨rfl, 0x200, rfl, by decide⟩, by decide, ⟨rfl, rfl, .inl ⟨rfl, rfl⟩⟩,
    ⟨rfl, rfl, .inr ⟨5, 0, [], rfl, by decide, rfl⟩⟩⟩

/-- `RegisterSkipsResult`, `JumpResult`: a skip taken and one not, and a `PC` past the range of a fetch. -/
theorem witness_skips :
    let s := { small false with pc := 0xFFC }
    s.getV 0 = 0x00 ∧ s.getV 0 ≠ 0x01 ∧ 0xFFE < (run 0x3000 s).pc.toNat ∧
      (0x1FF : Addr12).toNat < 0x200 ∧ (0xFFF : Addr12).toNat = 0xFFF := by decide

/-- `CallResult`: one entry below the depth, and the depth. `ReturnResult`: an entry, and none. -/
theorem witness_stack :
    let s := { small false with stack := [0x206] }
    let full := { small false with stack := [0x206, 0x206] }
    s.cfg.stackDepth ≠ some s.stack.length ∧ full.cfg.stackDepth = some full.stack.length ∧
      s.stack = 0x206 :: [] ∧ (small false).stack = [] := by decide

/-- `FontAddressResult`: 15 and 16. -/
theorem witness_font :
    let s := regs (small false) [(0, 15), (1, 16)]; (s.getV 0).toNat ≤ 0x0F ∧ 0x0F < (s.getV 1).toNat := by decide

/-- `BcdStore…`, `BlockStore…`, `BlockLoad…`: the last index that fits and the first that does not. -/
theorem witness_transfers :
    (0xFFD : Word).toNat + 2 ≤ 0xFFF ∧ 0xFFF < (0xFFE : Word).toNat + 2 ∧
      (0xFF0 : Word).toNat + (15 : Reg).val ≤ 0xFFF ∧ 0xFFF < (0xFF1 : Word).toNat + (15 : Reg).val ∧
      (0xFFF : Word).toNat + (0 : Reg).val ≤ 0xFFF ∧ 0xFFF < (0x1000 : Word).toNat + (0 : Reg).val := by decide

/-- `KeySkipsResult`: key 15 down, and a register that names no key. -/
theorem witness_key_skips :
    let s := regs allKeys [(0, 15), (1, 16)]
    (∃ k : Key, (s.getV 0).toNat = k.val ∧ s.keys[k.val] = true) ∧
      ¬∃ k : Key, (s.getV 1).toNat = k.val ∧ s.keys[k.val] = true := by decide

/-- `KeyWaitStarts`, `KeyDownEffect`, `KeyUpEffect`: the events, with the wait in each of its states. -/
theorem witness_keys :
    ({ small false with inbox := [.keyDown 15] }).nextIs (.keyDown 15) [] ∧
      ({ waitProgram with wait := .awaitingPress, inbox := [.keyDown 15] }).wait = .awaitingPress ∧
      ({ waitingState with inbox := [.keyUp 4] }).nextIs (.keyUp 4) [] ∧ waitingState.wait = .awaitingRelease 4 ∧
      waitingState.wait ≠ .awaitingRelease 5 ∧ (small false).wait = .idle ∧ waitingState.halted = none := by decide

/-- `TimerTickEffect`: while halted, and running with the elapsed time below and at the value. -/
theorem witness_tick :
    let s := { small false with dt := ⟨1, some 0⟩, inbox := [.timerTick 99] }
    s.nextIs (.timerTick 99) [] ∧ s.halted = none ∧ s.now ≤ 99 ∧ s.cfg.wf ∧ s.dt.wf s.now ∧ s.st.wf s.now ∧
      (99 - 0) / s.cfg.timerPeriod < s.dt.value.toNat ∧ (100 - 0) / s.cfg.timerPeriod ≥ s.dt.value.toNat ∧
      ({ s with halted := some (.invalidOpcode 0) }).halted ≠ none := by decide

/-- `TimerDecayComposes`, `TimerDecayBounds`. -/
theorem witness_decay : 1 ≤ 100 ∧ Timer.wf 150 ⟨3, some 150⟩ ∧ Timer.wf 150 ⟨0, none⟩ ∧ 150 ≤ 150 := by decide

/-- `DrawSpriteResult`, `DrawSpriteFaultsPartWay`, `DrawingTwiceRestores`: the last row that fits, one more, and none. -/
theorem witness_draw :
    let s := { small false with i := 0xFF1 }
    s.cfg.wf ∧ s.display.wf s.cfg ∧ s.i.toNat + 15 ≤ 0x1000 ∧ 0x1000 < ({ s with i := 0xFF2 }).i.toNat + 15 ∧
      (0 : Reg) ≠ vf := by decide

theorem witness_draw_twice :
    ∃ t u, exec (.drw 0 1 1) (canvas 0x80) = .next t ∧ exec (.drw 0 1 1) t = .next u := ⟨_, _, rfl, rfl⟩

/-- `PresentEffect`, `SnapshotEffect`, `QuitEndsTheRun`. -/
theorem witness_host_events :
    ({ small false with inbox := [.present] }).nextIs .present [] ∧
      ({ small false with inbox := [.snapshot] }).nextIs .snapshot [] ∧
      ({ small false with inbox := [.quit] }).nextIs .quit [] := by decide

/-- `QuitEndsTheRun`, `EveryLegalEventHasANextState`: the run over with no `Reset` next. -/
theorem witness_ended :
    let s := { small false with ended := true, inbox := [.present] }
    s.ended = true ∧ (∀ rom rest, s.inbox ≠ .reset rom :: rest) ∧ step s = .fault .runEnded :=
  ⟨rfl, by simp, rfl⟩

/-- `ResetEventEffect`: the longest ROM the loader takes, and one byte more. -/
theorem witness_rom :
    (List.replicate 3584 (0 : Byte)).length ≤ 3584 ∧ 3584 < (List.replicate 3585 (0 : Byte)).length ∧
      ({ small false with inbox := [.reset []] }).inbox = .reset [] :: [] :=
  ⟨by rw [List.length_replicate], by rw [List.length_replicate]; decide, rfl⟩

/-- `EveryLegalEventHasANextState`: a clock that goes back. -/
theorem witness_clock_backwards :
    step { small false with now := 5, inbox := [.timerTick 4] } = .refused .clockBackwards ∧
      step { small false with now := 5, inbox := [.step 4 0] } = .refused .clockBackwards := ⟨rfl, rfl⟩

/-- `HaltedCoreKeepsItsState`: a halted core that steps, with `Present` next and without. -/
theorem witness_halted :
    let s := { small false with halted := some (.invalidOpcode 0) }
    s.halted ≠ none ∧ (∀ rom rest, s.inbox ≠ .reset rom :: rest) ∧ (∃ t, step s = .next t) ∧
      ∃ t, step { s with inbox := [.present] } = .next t :=
  ⟨by decide, by simp [small, State.fresh], ⟨_, rfl⟩, ⟨_, rfl⟩⟩

/-- `InstructionsWriteOnlyTheirState`, `RegisterAndFlagWriters`: instructions that do write what they may. -/
theorem witness_writers :
    ((run 0xF033 (regs { small false with i := 0x300 } [(0, 254)])).readByte 0x300 ≠ (small false).readByte 0x300) ∧
      (run 0x00E0 (canvas 0)).display ≠ (canvas 0).display ∧ (run 0x2300 (small false)).stack ≠ [] ∧
      (run 0xA300 (small false)).i ≠ 0 ∧ (run 0xF30A (small false)).wait ≠ .idle ∧
      (run 0xF015 (regs { small false with stepRnd := some 0 } [(0, 1)])).dt ≠ (small false).dt ∧
      (run 0xF018 (regs { small false with stepRnd := some 0 } [(0, 1)])).st ≠ (small false).st ∧
      (run 0x00EE (small false)).halted ≠ none := by decide

theorem witness_registers :
    (1 : Reg) ∉ (Instr.addReg 0 1).destinations ∧ (Instr.addReg 0 1).writesFlag (small false).cfg = true ∧
      (Instr.or 0 1).writesFlag (small false).cfg = false ∧ (Instr.or 0 1).writesFlag (small true).cfg = true ∧
      (15 : Reg) ∈ (Instr.loadRegs 15).destinations := by decide

/-- `DirtyTrackingIsNotObservable`: two different states of one view, where a step is taken. -/
theorem witness_same_view :
    let s := small false
    let t := { s with display := s.display.presented, replies := [.frame s.display] }
    s.sameView t ∧ s ≠ t ∧ ∃ u, step s = .next u :=
  ⟨rfl, by decide, ⟨_, rfl⟩⟩

/-- `DirtyTrackingNeverUnderReports`: a step that changes a cell at the corner of the display. -/
theorem witness_dirty :
    let s := bytes (regs { canvas 0x80 with now := 0 } [(0, 15), (1, 3)]) [(0x200, 0xD0), (0x201, 0x11)]
    s.cfg.wf ∧ s.display.wf s.cfg ∧ s.onScreen 15 3 ∧ s.inbox = [] ∧
      (after s [.step 0 0]).pixel 15 3 ≠ s.pixel 15 3 := by decide

end Sys2Proof.Tests
end

/-!
PROOFS. The fields of the words of formats XKK, XY and XYN (spec/30_encoding.md R71, R72), and the words of the load,
arithmetic, logic, shift and random instructions (R74; log 16).
-/

namespace Sys2Proof

theorem toNat_encodeXkk (c : Nat) (x : Reg) (kk : Byte) (hc : c < 16) :
    (encodeXkk c x kk).toNat = c * 4096 + x.val * 256 + kk.toNat := by
  rw [encodeXkk, BitVec.toNat_ofNat, Nat.mod_eq_of_lt (by omega)]

theorem toNat_encodeXyn (c : Nat) (x y : Reg) (n : Nat) (hc : c < 16) (hn : n < 16) :
    (encodeXyn c x y n).toNat = c * 4096 + x.val * 256 + y.val * 16 + n := by
  rw [encodeXyn, BitVec.toNat_ofNat, Nat.mod_eq_of_lt (by omega)]

@[simp] theorem fieldClass_encodeXkk (c : Nat) (x : Reg) (kk : Byte) (hc : c < 16) :
    fieldClass (encodeXkk c x kk) = c := by
  rw [fieldClass, slice, toNat_encodeXkk c x kk hc]; omega

@[simp] theorem fieldX_encodeXkk (c : Nat) (x : Reg) (kk : Byte) (hc : c < 16) :
    fieldX (encodeXkk c x kk) = x := by
  rw [Fin.ext_iff, fieldX, Fin.val_ofNat, slice, toNat_encodeXkk c x kk hc]; omega

@[simp] theorem fieldKk_encodeXkk (c : Nat) (x : Reg) (kk : Byte) (hc : c < 16) :
    fieldKk (encodeXkk c x kk) = kk := by
  apply BitVec.eq_of_toNat_eq
  rw [fieldKk, BitVec.toNat_ofNat, slice, toNat_encodeXkk c x kk hc]; omega

@[simp] theorem fieldClass_encodeXyn (c : Nat) (x y : Reg) (n : Nat) (hc : c < 16) (hn : n < 16) :
    fieldClass (encodeXyn c x y n) = c := by
  rw [fieldClass, slice, toNat_encodeXyn c x y n hc hn]; omega

@[simp] theorem fieldX_encodeXyn (c : Nat) (x y : Reg) (n : Nat) (hc : c < 16) (hn : n < 16) :
    fieldX (encodeXyn c x y n) = x := by
  rw [Fin.ext_iff, fieldX, Fin.val_ofNat, slice, toNat_encodeXyn c x y n hc hn]; omega

@[simp] theorem fieldY_encodeXyn (c : Nat) (x y : Reg) (n : Nat) (hc : c < 16) (hn : n < 16) :
    fieldY (encodeXyn c x y n) = y := by
  rw [Fin.ext_iff, fieldY, Fin.val_ofNat, slice, toNat_encodeXyn c x y n hc hn]; omega

@[simp] theorem fieldN_encodeXyn (c : Nat) (x y : Reg) (n : Nat) (hc : c < 16) (hn : n < 16) :
    fieldN (encodeXyn c x y n) = n := by
  rw [fieldN, slice, toNat_encodeXyn c x y n hc hn]; omega

/-- The word of format XKK as the statements write it: class, then register, then byte. -/
theorem xkk_word (c : Nat) (x : Reg) (kk : Byte) :
    BitVec.ofNat 16 (c * 4096 + 256 * x.val + kk.toNat) = encodeXkk c x kk := by
  rw [encodeXkk, Nat.mul_comm 256]

/-- The word of format XYN as the statements write it: class and low nibble, then the registers. -/
theorem xyn_word (c : Nat) (x y : Reg) (n : Nat) :
    BitVec.ofNat 16 (c * 4096 + n + 256 * x.val + 16 * y.val) = encodeXyn c x y n := by
  rw [encodeXyn]; congr 1; omega

/-- A word of class 8 is dispatched on its low nibble (spec/30_encoding.md R76). -/
theorem decodeOpcode_class8_word (x y : Reg) (n : Nat) (hn : n < 16) :
    decodeOpcode (BitVec.ofNat 16 (8 * 4096 + n + 256 * x.val + 16 * y.val)) = decodeClass8 (encodeXyn 8 x y n) := by
  rw [xyn_word]; simp [decodeOpcode, hn]

theorem decodeOpcode_ldImm (x : Reg) (kk : Byte) :
    decodeOpcode (BitVec.ofNat 16 (0x6000 + 256 * x.val + kk.toNat)) = some (.ldImm x kk) := by
  rw [xkk_word 6 x kk]; simp [decodeOpcode]

theorem decodeOpcode_addImm (x : Reg) (kk : Byte) :
    decodeOpcode (BitVec.ofNat 16 (0x7000 + 256 * x.val + kk.toNat)) = some (.addImm x kk) := by
  rw [xkk_word 7 x kk]; simp [decodeOpcode]

theorem decodeOpcode_rnd (x : Reg) (kk : Byte) :
    decodeOpcode (BitVec.ofNat 16 (0xC000 + 256 * x.val + kk.toNat)) = some (.rnd x kk) := by
  rw [xkk_word 12 x kk]; simp [decodeOpcode]

theorem decodeOpcode_or (x y : Reg) :
    decodeOpcode (BitVec.ofNat 16 (0x8001 + 256 * x.val + 16 * y.val)) = some (.or x y) := by
  rw [decodeOpcode_class8_word x y 1 (by decide)]; simp [decodeClass8]

theorem decodeOpcode_and (x y : Reg) :
    decodeOpcode (BitVec.ofNat 16 (0x8002 + 256 * x.val + 16 * y.val)) = some (.and x y) := by
  rw [decodeOpcode_class8_word x y 2 (by decide)]; simp [decodeClass8]

theorem decodeOpcode_xor (x y : Reg) :
    decodeOpcode (BitVec.ofNat 16 (0x8003 + 256 * x.val + 16 * y.val)) = some (.xor x y) := by
  rw [decodeOpcode_class8_word x y 3 (by decide)]; simp [decodeClass8]

theorem decodeOpcode_addReg (x y : Reg) :
    decodeOpcode (BitVec.ofNat 16 (0x8004 + 256 * x.val + 16 * y.val)) = some (.addReg x y) := by
  rw [decodeOpcode_class8_word x y 4 (by decide)]; simp [decodeClass8]

theorem decodeOpcode_sub (x y : Reg) :
    decodeOpcode (BitVec.ofNat 16 (0x8005 + 256 * x.val + 16 * y.val)) = some (.sub x y) := by
  rw [decodeOpcode_class8_word x y 5 (by decide)]; simp [decodeClass8]

theorem decodeOpcode_shr (x y : Reg) :
    decodeOpcode (BitVec.ofNat 16 (0x8006 + 256 * x.val + 16 * y.val)) = some (.shr x y) := by
  rw [decodeOpcode_class8_word x y 6 (by decide)]; simp [decodeClass8]

theorem decodeOpcode_subn (x y : Reg) :
    decodeOpcode (BitVec.ofNat 16 (0x8007 + 256 * x.val + 16 * y.val)) = some (.subn x y) := by
  rw [decodeOpcode_class8_word x y 7 (by decide)]; simp [decodeClass8]

theorem decodeOpcode_shl (x y : Reg) :
    decodeOpcode (BitVec.ofNat 16 (0x800E + 256 * x.val + 16 * y.val)) = some (.shl x y) := by
  rw [decodeOpcode_class8_word x y 14 (by decide)]; simp [decodeClass8]

end Sys2Proof

/-!
PROOFS. Load, arithmetic, logic, shift and random (spec/40_alu.md): what the shared register writes leave behind, the
data and the flags as numbers, and the statements.
-/

namespace Sys2Proof.Machine

/-! ### What a register write and the auto-advance leave behind -/

section
variable {s t : State} {x : Reg}

/-- One register written: its value, `PC`, and nothing else. -/
theorem State.setV_advance_spec {b : Byte} (h : t = (s.setV x b).advance) :
    (∀ r, t.getV r = if r = x then b else s.getV r) ∧ t.pc = s.pc + 2 ∧ s.sameButRegs t ∧ s.sameBytes t := by
  subst h
  exact ⟨fun r => State.getV_setV s x r b, rfl, rfl, fun _ => rfl⟩

/-- A logic result written (spec/40_alu.md R103, R114). -/
theorem State.setLogic_advance_spec {data : Byte} (h : t = (s.setLogic x data).advance) :
    (∀ r, t.getV r = if r = vf ∧ s.cfg.quirkLogicVf0 = true then 0 else if r = x then data else s.getV r) ∧
      t.pc = s.pc + 2 ∧ s.sameButRegs t ∧ s.sameBytes t := by
  subst h
  exact ⟨fun r => State.getV_setLogic s x r data, rfl, rfl, fun _ => rfl⟩

/-- Data written, then the flag (spec/40_alu.md R113): the flag is what VF holds, also where VF is the destination. -/
theorem State.setDataThenFlag_advance_spec {data flag : Byte} (h : t = (s.setDataThenFlag x data flag).advance) :
    t.getV vf = flag ∧ (x ≠ vf → t.getV x = data) ∧ (∀ r, r ≠ x → r ≠ vf → t.getV r = s.getV r) ∧
      t.pc = s.pc + 2 ∧ s.sameButRegs t ∧ s.sameBytes t := by
  subst h
  have hv := State.getV_setDataThenFlag s x
  refine ⟨?_, fun hx => ?_, fun r hx hvf => ?_, rfl, rfl, fun _ => rfl⟩ <;> rw [State.getV_advance, hv]
  · rw [if_pos rfl]
  · rw [if_neg hx, if_pos rfl]
  · rw [if_neg hvf, if_neg hx]

end

/-! ### Data and flags as numbers -/

theorem toNat_flagByte (c : Bool) : (flagByte c).toNat = c.toNat := by cases c <;> rfl

theorem carryFlag_eq (a b : Byte) : carryFlag a b = if a.toNat + b.toNat > 255 then 1 else 0 := by
  simp [carryFlag, flagByte]

theorem notBorrowFlag_eq (a b : Byte) : notBorrowFlag a b = if a.toNat ≥ b.toNat then 1 else 0 := by
  simp [notBorrowFlag, flagByte]

theorem toNat_lowBitFlag (a : Byte) : (lowBitFlag a).toNat = a.toNat % 2 := by
  rw [lowBitFlag, toNat_flagByte, BitVec.getLsbD, Nat.toNat_testBit]; omega

theorem toNat_highBitFlag (a : Byte) : (highBitFlag a).toNat = a.toNat / 128 := by
  rw [highBitFlag, toNat_flagByte, BitVec.getLsbD, Nat.toNat_testBit]; omega

/-- A byte difference is the natural one, with 256 borrowed where that would be negative. -/
theorem toNat_byte_sub (a b : Byte) :
    (a - b).toNat = if a.toNat ≥ b.toNat then a.toNat - b.toNat else a.toNat + 256 - b.toNat := by
  rw [BitVec.toNat_sub]; split <;> omega

theorem toNat_byte_shiftRight_one (a : Byte) : (a >>> 1).toNat = a.toNat / 2 := by
  rw [BitVec.toNat_ushiftRight, Nat.shiftRight_one]

theorem toNat_byte_shiftLeft_one (a : Byte) : (a <<< 1).toNat = a.toNat * 2 % 256 := by
  rw [BitVec.toNat_shiftLeft, Nat.shiftLeft_eq, Nat.pow_one]

/-- A masked byte has no bit outside its mask. -/
theorem byte_and_mask_and_not (b kk : Byte) : b &&& kk &&& ~~~kk = 0 := by
  rw [BitVec.and_assoc, BitVec.and_not_self]; exact BitVec.and_zero

/-- What SUB and SUBN share: a difference written, then its not-borrow (spec/40_alu.md R107, R109). -/
theorem State.setDifference_spec {s t : State} {x : Reg} {a b : Byte}
    (h : t = (s.setDataThenFlag x (a - b) (notBorrowFlag a b)).advance) :
    t.getV vf = (if a.toNat ≥ b.toNat then 1 else 0) ∧
      (x ≠ vf → (t.getV x).toNat = if a.toNat ≥ b.toNat then a.toNat - b.toNat else a.toNat + 256 - b.toNat) ∧
      (∀ r, r ≠ x → r ≠ vf → t.getV r = s.getV r) ∧ t.pc = s.pc + 2 ∧ s.sameButRegs t ∧ s.sameBytes t := by
  obtain ⟨hflag, hdata, hframe⟩ := State.setDataThenFlag_advance_spec h
  refine ⟨hflag.trans (notBorrowFlag_eq a b), fun hx => ?_, hframe⟩
  rw [hdata hx, toNat_byte_sub]

/-! ### The statements -/

/-- Settles O8. -/
theorem loadImmediateResult : Obligations.LoadImmediateResult :=
  fun x kk => ⟨decodeOpcode_ldImm x kk, fun _ => ⟨_, rfl, State.setV_advance_spec rfl⟩⟩

/-- Settles O9: a byte sum is the natural sum modulo 256. -/
theorem addImmediateResult : Obligations.AddImmediateResult := by
  refine fun x kk => ⟨decodeOpcode_addImm x kk, fun s => ?_⟩
  obtain ⟨hv, hframe⟩ := State.setV_advance_spec (s := s) (x := x) (b := s.getV x + kk) rfl
  refine ⟨_, rfl, ?_, fun r hr => ?_, hframe⟩
  · rw [hv, if_pos rfl, BitVec.toNat_add]
  · rw [hv, if_neg hr]

/-- Settles O11: the three instructions share `setLogic`. -/
theorem logicResults : Obligations.LogicResults := by
  refine fun x y => ⟨decodeOpcode_or x y, decodeOpcode_and x y, decodeOpcode_xor x y, fun s ins data h => ?_⟩
  have hexec : exec ins s = .next (s.setLogic x data).advance := by
    obtain ⟨rfl, rfl⟩ | ⟨rfl, rfl⟩ | ⟨rfl, rfl⟩ := h <;> rfl
  exact ⟨_, hexec, State.setLogic_advance_spec rfl⟩

/-- Settles O12. -/
theorem addRegistersResult : Obligations.AddRegistersResult := by
  refine fun x y => ⟨decodeOpcode_addReg x y, fun s => ?_⟩
  obtain ⟨hflag, hdata, hframe⟩ := State.setDataThenFlag_advance_spec (s := s) (x := x)
    (data := s.getV x + s.getV y) (flag := carryFlag (s.getV x) (s.getV y)) rfl
  refine ⟨_, rfl, hflag.trans (carryFlag_eq _ _), fun hx => ?_, hframe⟩
  rw [hdata hx, BitVec.toNat_add]

/-- Settles O13: SUBN is SUB with minuend and subtrahend exchanged. -/
theorem subtractResults : Obligations.SubtractResults := by
  refine fun x y => ⟨decodeOpcode_sub x y, decodeOpcode_subn x y, fun s ins a b h => ?_⟩
  obtain ⟨rfl, rfl, rfl⟩ | ⟨rfl, rfl, rfl⟩ := h
  · exact ⟨_, rfl, State.setDifference_spec rfl⟩
  · exact ⟨_, rfl, State.setDifference_spec rfl⟩

/-- Settles O14: data and flag of SHR and SHL are computed from one shifted byte. -/
theorem shiftResults : Obligations.ShiftResults := by
  refine fun x y => ⟨decodeOpcode_shr x y, decodeOpcode_shl x y, fun s ins a data flag ha h => ?_⟩
  have hsrc : a = (s.shiftOperand x y).toNat := ha
  obtain ⟨d, f, hexec, hd, hf⟩ : ∃ d f : Byte, exec ins s = .next (s.setDataThenFlag x d f).advance ∧
      d.toNat = data ∧ f.toNat = flag := by
    obtain ⟨rfl, rfl, rfl⟩ | ⟨rfl, rfl, rfl⟩ := h
    · exact ⟨_, _, rfl, hsrc ▸ toNat_byte_shiftRight_one _, hsrc ▸ toNat_lowBitFlag _⟩
    · exact ⟨_, _, rfl, hsrc ▸ toNat_byte_shiftLeft_one _, hsrc ▸ toNat_highBitFlag _⟩
  obtain ⟨hflag, hdata, hframe⟩ := State.setDataThenFlag_advance_spec (s := s) (x := x) (data := d) (flag := f) rfl
  exact ⟨_, hexec, by rw [hflag, hf], fun hx => by rw [hdata hx, hd], hframe⟩

/-- Settles O15: the byte is `drawByte`, whatever its value. -/
theorem randomAndMaskResult : Obligations.RandomAndMaskResult := by
  refine fun x kk => ⟨decodeOpcode_rnd x kk, fun s => ?_⟩
  obtain ⟨hv, hpc, -, hbytes⟩ := State.setV_advance_spec (s := s.takeDraw) (x := x) (b := s.drawByte &&& kk) rfl
  refine ⟨_, s.drawByte, rfl, ?_, hv, ?_, hpc, rfl, hbytes⟩
  · cases h : s.stepRnd with
    | none => rw [State.drawByte, h, Option.getD_none]
    | some carried => rw [State.drawByte, h, Option.getD_some]
  · rw [hv, if_pos rfl, byte_and_mask_and_not]

end Sys2Proof.Machine

/-!
PROOFS. The words of format NNN (spec/30_encoding.md R71, R72) and of the register skips and the jump (R74, R79; log 15,
16).
-/

namespace Sys2Proof

theorem toNat_encodeNnn (c : Nat) (nnn : Addr12) (hc : c < 16) : (encodeNnn c nnn).toNat = c * 4096 + nnn.toNat := by
  rw [encodeNnn, BitVec.toNat_ofNat, Nat.mod_eq_of_lt (by omega)]

@[simp] theorem fieldClass_encodeNnn (c : Nat) (nnn : Addr12) (hc : c < 16) : fieldClass (encodeNnn c nnn) = c := by
  rw [fieldClass, slice, toNat_encodeNnn c nnn hc]; omega

@[simp] theorem fieldNnn_encodeNnn (c : Nat) (nnn : Addr12) (hc : c < 16) : fieldNnn (encodeNnn c nnn) = nnn := by
  apply BitVec.eq_of_toNat_eq
  rw [fieldNnn, BitVec.toNat_ofNat, slice, toNat_encodeNnn c nnn hc]; omega

/-- The word of format XY with a nibble that is not examined, as the statements write it: the nibble comes last. -/
theorem xy_low_word (c : Nat) (x y : Reg) (low : Fin 16) :
    BitVec.ofNat 16 (c * 4096 + 256 * x.val + 16 * y.val + low.val) = encodeXyn c x y low.val := by
  rw [encodeXyn, Nat.mul_comm 256, Nat.mul_comm 16]

theorem decodeOpcode_jp (nnn : Addr12) : decodeOpcode (BitVec.ofNat 16 (0x1000 + nnn.toNat)) = some (.jp nnn) := by
  have hword : BitVec.ofNat 16 (0x1000 + nnn.toNat) = encodeNnn 1 nnn := rfl
  rw [hword]; simp [decodeOpcode]

theorem decodeOpcode_seImm (x : Reg) (kk : Byte) :
    decodeOpcode (BitVec.ofNat 16 (0x3000 + 256 * x.val + kk.toNat)) = some (.seImm x kk) := by
  rw [xkk_word 3 x kk]; simp [decodeOpcode]

theorem decodeOpcode_sneImm (x : Reg) (kk : Byte) :
    decodeOpcode (BitVec.ofNat 16 (0x4000 + 256 * x.val + kk.toNat)) = some (.sneImm x kk) := by
  rw [xkk_word 4 x kk]; simp [decodeOpcode]

theorem decodeOpcode_seReg (x y : Reg) (low : Fin 16) :
    decodeOpcode (BitVec.ofNat 16 (0x5000 + 256 * x.val + 16 * y.val + low.val)) = some (.seReg x y) := by
  rw [xy_low_word 5 x y low]; simp [decodeOpcode]

theorem decodeOpcode_sneReg (x y : Reg) (low : Fin 16) :
    decodeOpcode (BitVec.ofNat 16 (0x9000 + 256 * x.val + 16 * y.val + low.val)) = some (.sneReg x y) := by
  rw [xy_low_word 9 x y low]; simp [decodeOpcode]

end Sys2Proof

/-!
PROOFS. The register skips and the jump (spec/41_control_flow.md): what writing `PC` leaves behind, the fault of a fetch
out of range, and the statements.
-/

namespace Sys2Proof.Machine

/-- `PC` written: its value, and nothing else. -/
theorem State.setPc_spec {s t : State} {w : Word} (h : t = s.setPc w) :
    t.pc = w ∧ s.sameButPc t ∧ s.sameBytes t := by
  subst h
  exact ⟨rfl, rfl, fun _ => rfl⟩

/-- A skip moves `PC` by 4 when it is taken and by 2 when not (spec/41_control_flow.md R130), and does nothing else. -/
theorem State.skipIf_spec {s t : State} {c : Bool} (h : t = s.skipIf c) :
    (c = true → t.pc = s.pc + 4) ∧ (c ≠ true → t.pc = s.pc + 2) ∧ s.sameButPc t ∧ s.sameBytes t := by
  obtain ⟨hpc, hframe⟩ := State.setPc_spec h
  exact ⟨fun hc => hpc.trans (if_pos hc), fun hc => hpc.trans (if_neg hc), hframe⟩

/-- An address immediate keeps its number when it is widened (spec/30_encoding.md R73). -/
@[simp] theorem toNat_addressOperand (nnn : Addr12) : (addressOperand nnn).toNat = nnn.toNat := by
  rw [addressOperand, BitVec.toNat_setWidth, Nat.mod_eq_of_lt (by omega)]

/-- The inputs of a `Step` leave `PC` as it is. -/
theorem State.takesStep_pc {s s0 : State} (h : s.takesStep s0) : s0.pc = s.pc := by
  obtain ⟨-, -, ⟨-, rfl⟩ | ⟨now, rnd, rest, -, -, rfl⟩⟩ := h
  · rfl
  · rfl

/-- A `Step`, free or queued, with `PC` out of the range of a fetch latches the fault and does nothing else
(spec/20_memory.md R54). -/
theorem step_fetch_fault {s s0 : State} (h : s.takesStep s0) (hpc : s.pc.toNat < 0x200 ∨ 0xFFE < s.pc.toNat) :
    ∃ u, step s = .next u ∧ s0.onlyFaulted u (.addressBounds s.pc.toNat) := by
  rw [step_takes s s0 h]
  rw [← State.takesStep_pc h] at hpc ⊢
  obtain ⟨-, hrun⟩ | ⟨hin, -⟩ | ⟨hin, -⟩ := s0.runInstruction_cases
  · exact ⟨_, hrun, rfl⟩
  · omega
  · omega

/-! ### The statements -/

/-- Settles O16: each of the four instructions is `skipIf` of its condition. -/
theorem registerSkipsResult : Obligations.RegisterSkipsResult := by
  refine fun x y kk low => ⟨decodeOpcode_seImm x kk, decodeOpcode_sneImm x kk, decodeOpcode_seReg x y low,
    decodeOpcode_sneReg x y low, fun s ins taken h => ?_⟩
  obtain ⟨c, hexec, hc⟩ : ∃ c : Bool, exec ins s = .next (s.skipIf c) ∧ (taken ↔ c = true) := by
    obtain ⟨rfl, ht⟩ | ⟨rfl, ht⟩ | ⟨rfl, ht⟩ | ⟨rfl, ht⟩ := h <;>
      exact ⟨_, rfl, ht.trans decide_eq_true_iff.symm⟩
  obtain ⟨htaken, hnot, hframe, hbytes⟩ := State.skipIf_spec (s := s) (c := c) rfl
  rw [hc]
  exact ⟨_, hexec, htaken, hnot, hframe, hbytes, fun _ hstep hpc => step_fetch_fault hstep (.inr hpc)⟩

/-- Settles O17: a 12-bit target is out of the range of a fetch below 0x200 and at 0xFFF. -/
theorem jumpResult : Obligations.JumpResult := by
  refine fun nnn => ⟨decodeOpcode_jp nnn, fun s => ?_⟩
  obtain ⟨hpc, hframe, hbytes⟩ := State.setPc_spec (s := s) (w := addressOperand nnn) rfl
  have hnnn : (s.setPc (addressOperand nnn)).pc.toNat = nnn.toNat := by
    rw [hpc, toNat_addressOperand]
  refine ⟨_, rfl, hnnn, hframe, hbytes, fun t0 hstep hout => ?_⟩
  rw [← hnnn] at hout ⊢
  exact step_fetch_fault hstep (by omega)

end Sys2Proof.Machine

/-!
PROOFS. The words of format X and of class F (spec/30_encoding.md R71, R72, R78), and the words of the two writes of the
index register (R74; log 16).
-/

namespace Sys2Proof

theorem toNat_encodeX (c : Nat) (x : Reg) (sub : Nat) (hc : c < 16) (hs : sub < 256) :
    (encodeX c x sub).toNat = c * 4096 + x.val * 256 + sub := by
  rw [encodeX, BitVec.toNat_ofNat, Nat.mod_eq_of_lt (by omega)]

@[simp] theorem fieldClass_encodeX (c : Nat) (x : Reg) (sub : Nat) (hc : c < 16) (hs : sub < 256) :
    fieldClass (encodeX c x sub) = c := by
  rw [fieldClass, slice, toNat_encodeX c x sub hc hs]; omega

@[simp] theorem fieldX_encodeX (c : Nat) (x : Reg) (sub : Nat) (hc : c < 16) (hs : sub < 256) :
    fieldX (encodeX c x sub) = x := by
  rw [Fin.ext_iff, fieldX, Fin.val_ofNat, slice, toNat_encodeX c x sub hc hs]; omega

@[simp] theorem lowByte_slice_encodeX (c : Nat) (x : Reg) (sub : Nat) (hc : c < 16) (hs : sub < 256) :
    slice (encodeX c x sub).toNat 7 0 = sub := by
  rw [slice, toNat_encodeX c x sub hc hs]; omega

/-- The word of format X as the statements write it: class and low byte, then the register. -/
theorem x_word (c : Nat) (x : Reg) (sub : Nat) :
    BitVec.ofNat 16 (c * 4096 + sub + 256 * x.val) = encodeX c x sub := by
  rw [encodeX]; congr 1; omega

/-- A word of class F is dispatched on its low byte (spec/30_encoding.md R78). -/
theorem decodeOpcode_classF_word (x : Reg) (sub : Nat) (hs : sub < 256) :
    decodeOpcode (BitVec.ofNat 16 (15 * 4096 + sub + 256 * x.val)) = decodeClassF (encodeX 15 x sub) := by
  rw [x_word]; simp [decodeOpcode, hs]

theorem decodeOpcode_ldI (nnn : Addr12) : decodeOpcode (BitVec.ofNat 16 (0xA000 + nnn.toNat)) = some (.ldI nnn) := by
  have hword : BitVec.ofNat 16 (0xA000 + nnn.toNat) = encodeNnn 10 nnn := rfl
  rw [hword]; simp [decodeOpcode]

theorem decodeOpcode_addI (x : Reg) : decodeOpcode (BitVec.ofNat 16 (0xF01E + 256 * x.val)) = some (.addI x) := by
  rw [decodeOpcode_classF_word x 0x1E (by decide)]; simp [decodeClassF]

end Sys2Proof

/-!
PROOFS. The load and the addition of the index register (spec/42_index_memory.md): what writing `I` leaves behind, and
the statements.
-/

namespace Sys2Proof.Machine

/-- `I` written: its value, `PC`, and nothing else. -/
theorem State.setI_advance_spec {s t : State} {w : Word} (h : t = (s.setI w).advance) :
    t.i = w ∧ t.pc = s.pc + 2 ∧ s.sameButIndex t ∧ s.sameBytes t := by
  subst h
  exact ⟨rfl, rfl, rfl, fun _ => rfl⟩

/-- A number reduced modulo the size of memory fits a word. -/
theorem toNat_word_mod_4096 (n : Nat) : (BitVec.ofNat 16 (n % 4096)).toNat = n % 4096 := by
  rw [BitVec.toNat_ofNat, Nat.mod_eq_of_lt (by omega)]

/-- Settles O21: the 12-bit operand is written whole. -/
theorem loadIndexResult : Obligations.LoadIndexResult := by
  refine fun nnn => ⟨decodeOpcode_ldI nnn, fun s => ?_⟩
  obtain ⟨hi, hframe⟩ := State.setI_advance_spec (s := s) (w := addressOperand nnn) rfl
  exact ⟨_, rfl, by rw [hi, toNat_addressOperand], hframe⟩

/-- Settles O22: the sum is reduced modulo 4096 before it is written, and VF is in the frame. -/
theorem addToIndexResult : Obligations.AddToIndexResult := by
  refine fun x => ⟨decodeOpcode_addI x, fun s => ?_⟩
  obtain ⟨hi, hframe⟩ := State.setI_advance_spec (s := s)
    (w := BitVec.ofNat 16 ((s.i.toNat + (s.getV x).toNat) % 4096)) rfl
  exact ⟨_, rfl, by rw [hi, toNat_word_mod_4096], hframe⟩

end Sys2Proof.Machine

/-!
PROOFS. Setting the delay timer (spec/44_timers.md): its word (R74, R78; log 16), what a clock reading is (R190; log 2),
what a timer that is set holds, and the statement.
-/

namespace Sys2Proof

theorem decodeOpcode_ldDtVx (x : Reg) : decodeOpcode (BitVec.ofNat 16 (0xF015 + 256 * x.val)) = some (.ldDtVx x) := by
  rw [decodeOpcode_classF_word x 0x15 (by decide)]; simp [decodeClassF]

end Sys2Proof

namespace Sys2Proof.Machine

/-- The reading the event of the `Step` carries is the clock as it stands. -/
theorem State.clockReading_of_carried {s : State} (h : s.stepRnd.isSome = true) : s.clockReading = s.now := by
  rw [State.clockReading, if_pos h]

/-- Readings never decrease, carried or free. -/
theorem State.now_le_clockReading (s : State) : s.now ≤ s.clockReading := by
  by_cases h : s.stepRnd.isSome = true
  · exact (State.clockReading_of_carried h).ge
  · rw [State.clockReading, if_neg h]; exact Nat.le_add_right ..

/-- A timer that is set has the reading as timestamp exactly when it runs. -/
theorem Timer.set_last (b : Byte) (now : Nat) : (Timer.set b now).last = if b ≠ 0 then some now else none := by
  rw [Timer.set, ite_not]

/-- Settles O36: the timer is set at the reading that becomes the clock, and that reading is the carried one or no
smaller. -/
theorem setDelayTimerResult : Obligations.SetDelayTimerResult := by
  refine fun x => ⟨decodeOpcode_ldDtVx x, fun s => ⟨_, rfl, rfl, ?_, ?_, ?_, rfl, rfl, fun _ => rfl⟩⟩
  · exact Timer.set_last (s.getV x) s.clockReading
  · exact s.now_le_clockReading
  · exact State.clockReading_of_carried

end Sys2Proof.Machine

/-!
PROOFS. The decoder and the encoder (spec/30_encoding.md sections 1 and 2): every instruction's word decodes to it, every
word is put together from its fields, and the opcode map's masks read those fields.
-/

namespace Sys2Proof

/-! ### Words and bytes -/

/-- An opcode split into its two bytes and joined again (spec/20_memory.md R54, R55). -/
theorem joinBytes_highByte_lowByte (op : Word) : joinBytes (highByte op) (lowByte op) = op := by
  apply BitVec.eq_of_toNat_eq
  rw [joinBytes, highByte, lowByte]
  simp only [BitVec.toNat_ofNat, slice]
  omega

theorem toNat_joinBytes (high low : Byte) : (joinBytes high low).toNat = high.toNat * 256 + low.toNat := by
  rw [joinBytes, BitVec.toNat_ofNat, Nat.mod_eq_of_lt (by omega)]

/-- The two bytes of an opcode decode as the opcode does. -/
theorem decode_bytes_of_some {op : Word} {ins : Instr} (rest : List Byte) (h : decodeOpcode op = some ins) :
    decode (highByte op :: lowByte op :: rest) = .ok (ins, rest) := by
  rw [decode, joinBytes_highByte_lowByte, h]

/-- Two bytes decode to an instruction exactly if the word they make does. -/
theorem decode_pair_eq_ok {high low : Byte} {ins : Instr} (h : decode [high, low] = .ok (ins, [])) :
    decodeOpcode (joinBytes high low) = some ins := by
  rw [decode] at h
  split at h
  · rename_i found hfound
    injection h with h
    injection h with h
    rw [hfound, h]
  · cases h

/-! ### Decoding what was encoded -/

/-- The word of a well-formed instruction decodes to it, class by class. -/
theorem decodeOpcode_encodeOpcode (ins : Instr) (hwf : ins.wf = true) : decodeOpcode (encodeOpcode ins) = some ins := by
  cases ins
  case cls | ret => rfl
  case jp | call | ldI | jpV0 => simp [encodeOpcode, decodeOpcode]
  case seImm | sneImm | ldImm | addImm | rnd => simp [encodeOpcode, decodeOpcode]
  case seReg | sneReg => simp [encodeOpcode, decodeOpcode]
  case ldReg | or | and | xor | addReg | sub | shr | subn | shl => simp [encodeOpcode, decodeOpcode, decodeClass8]
  case drw x y n =>
    have hn : n < 16 := of_decide_eq_true hwf
    simp [encodeOpcode, decodeOpcode, hn]
  case skp | sknp => simp [encodeOpcode, decodeOpcode, decodeClassE]
  all_goals simp [encodeOpcode, decodeOpcode, decodeClassF]

/-! ### A word put together from its fields -/

theorem fieldClass_lt (op : Word) : fieldClass op < 16 := Nat.mod_lt _ (by decide)

theorem fieldN_lt (op : Word) : fieldN op < 16 := Nat.mod_lt _ (by decide)

/-- The fields of an opcode as digits of its number (spec/30_encoding.md R71). -/
theorem fields_toNat (op : Word) :
    fieldClass op = op.toNat / 4096 ∧ (fieldX op).val = op.toNat / 256 % 16 ∧ (fieldY op).val = op.toNat / 16 % 16 ∧
      fieldN op = op.toNat % 16 ∧ slice op.toNat 7 0 = op.toNat % 256 ∧ (fieldKk op).toNat = op.toNat % 256 ∧
      (fieldNnn op).toNat = op.toNat % 4096 := by
  simp only [fieldClass, fieldX, fieldY, fieldN, fieldKk, fieldNnn, slice, BitVec.toNat_ofNat, Fin.val_ofNat]
  omega

section
variable {op : Word} {c : Nat} (hc : fieldClass op = c)
include hc

theorem encodeNnn_fields : encodeNnn c (fieldNnn op) = op := by
  obtain ⟨hcls, -, -, -, -, -, hnnn⟩ := fields_toNat op
  apply BitVec.eq_of_toNat_eq
  rw [encodeNnn, BitVec.toNat_ofNat, hnnn]; omega

theorem encodeXkk_fields : encodeXkk c (fieldX op) (fieldKk op) = op := by
  obtain ⟨hcls, hx, -, -, -, hkk, -⟩ := fields_toNat op
  apply BitVec.eq_of_toNat_eq
  rw [encodeXkk, BitVec.toNat_ofNat, hx, hkk]; omega

theorem encodeXyn_fields {n : Nat} (hn : fieldN op = n) : encodeXyn c (fieldX op) (fieldY op) n = op := by
  obtain ⟨hcls, hx, hy, hlow, -⟩ := fields_toNat op
  apply BitVec.eq_of_toNat_eq
  rw [encodeXyn, BitVec.toNat_ofNat, hx, hy]; omega

theorem encodeX_fields {sub : Nat} (hs : slice op.toNat 7 0 = sub) : encodeX c (fieldX op) sub = op := by
  obtain ⟨hcls, hx, -, -, hlow, -⟩ := fields_toNat op
  apply BitVec.eq_of_toNat_eq
  rw [encodeX, BitVec.toNat_ofNat, hx]; omega

/-- With a zero written for the low nibble (spec/30_encoding.md R79). -/
theorem encodeXyn_fields_zero : encodeXyn c (fieldX op) (fieldY op) 0 = BitVec.ofNat 16 (op.toNat / 16 * 16) := by
  obtain ⟨hcls, hx, hy, -⟩ := fields_toNat op
  rw [encodeXyn, hx, hy]; congr 1; omega

end

/-! ### The masks of the opcode map read the fields -/

theorem and_class_mask (op : Word) : op &&& 0xF000 = BitVec.ofNat 16 (fieldClass op * 4096) := by
  rw [← Laws.nnn_row (fieldClass op) (fieldNnn op), encodeNnn_fields rfl]

theorem and_nibble_mask (op : Word) : op &&& 0xF00F = BitVec.ofNat 16 (fieldClass op * 4096 + fieldN op) := by
  rw [← (Laws.xy_row (fieldClass op) (fieldX op) (fieldY op) (fieldN op) (fieldN_lt op)).1, encodeXyn_fields rfl rfl]

theorem and_byte_mask (op : Word) :
    op &&& 0xF0FF = BitVec.ofNat 16 (fieldClass op * 4096 + slice op.toNat 7 0) := by
  rw [← Laws.x_row (fieldClass op) (fieldX op) (slice op.toNat 7 0) (Nat.mod_lt _ (by decide)), encodeX_fields rfl rfl]

/-- A word under a mask of the opcode map, told by the numbers of its fields. -/
theorem fieldClass_of_mask {op m : Word} (h : op &&& 0xF000 = m) : fieldClass op = m.toNat / 4096 := by
  have hop := fieldClass_lt op
  rw [← h, and_class_mask, BitVec.toNat_ofNat]; omega

theorem fields_of_nibble_mask {op m : Word} (h : op &&& 0xF00F = m) :
    fieldClass op = m.toNat / 4096 ∧ fieldN op = m.toNat % 16 := by
  have hop := fieldClass_lt op
  have hopn := fieldN_lt op
  rw [← h, and_nibble_mask, BitVec.toNat_ofNat]; omega

theorem fields_of_byte_mask {op m : Word} (h : op &&& 0xF0FF = m) :
    fieldClass op = m.toNat / 4096 ∧ slice op.toNat 7 0 = m.toNat % 256 := by
  have hop := fieldClass_lt op
  have hops : slice op.toNat 7 0 < 256 := Nat.mod_lt _ (by decide)
  rw [← h, and_byte_mask, BitVec.toNat_ofNat]; omega

/-! ### What the decoder can answer

Each lemma walks through one dispatch of the decoder: the instruction is well formed, encodes again to the word, and the
word matches its row of the opcode map. -/

section
variable {op : Word} {ins : Instr}

theorem decodeClass0_spec (h : decodeClass0 op = some ins) :
    ins.wf = true ∧ encodeOpcode ins = op ∧ op &&& ins.tableMask = ins.tableMatch := by
  unfold decodeClass0 at h
  split at h
  · rename_i hop; cases h; exact ⟨rfl, hop.symm, hop ▸ rfl⟩
  · split at h
    · rename_i hop; cases h; exact ⟨rfl, hop.symm, hop ▸ rfl⟩
    · cases h

theorem decodeClass8_spec (hc : fieldClass op = 8) (h : decodeClass8 op = some ins) :
    ins.wf = true ∧ encodeOpcode ins = op ∧ op &&& ins.tableMask = ins.tableMatch := by
  unfold decodeClass8 at h
  split at h <;> cases h
  all_goals
    rename_i hn
    exact ⟨rfl, encodeXyn_fields hc hn, (and_nibble_mask op).trans (by rw [hc, hn]; rfl)⟩

theorem decodeClassE_spec (hc : fieldClass op = 14) (h : decodeClassE op = some ins) :
    ins.wf = true ∧ encodeOpcode ins = op ∧ op &&& ins.tableMask = ins.tableMatch := by
  unfold decodeClassE at h
  split at h <;> cases h
  all_goals
    rename_i hs
    exact ⟨rfl, encodeX_fields hc hs, (and_byte_mask op).trans (by rw [hc, hs]; rfl)⟩

theorem decodeClassF_spec (hc : fieldClass op = 15) (h : decodeClassF op = some ins) :
    ins.wf = true ∧ encodeOpcode ins = op ∧ op &&& ins.tableMask = ins.tableMatch := by
  unfold decodeClassF at h
  split at h <;> cases h
  all_goals
    rename_i hs
    exact ⟨rfl, encodeX_fields hc hs, (and_byte_mask op).trans (by rw [hc, hs]; rfl)⟩

theorem canonicalOpcode_of_examined {c : Nat} (hc : fieldClass op = c) (h : c ≠ 5 ∧ c ≠ 9) :
    canonicalOpcode op = op := by
  rw [canonicalOpcode, if_neg (by omega)]

theorem canonicalOpcode_of_unexamined {c : Nat} (hc : fieldClass op = c) (h : c = 5 ∨ c = 9) :
    canonicalOpcode op = BitVec.ofNat 16 (op.toNat / 16 * 16) := by
  rw [canonicalOpcode, if_pos (by omega)]

/-- The class of the word says which format its instruction is encoded in. -/
theorem decodeOpcode_spec (h : decodeOpcode op = some ins) :
    ins.wf = true ∧ encodeOpcode ins = canonicalOpcode op ∧ op &&& ins.tableMask = ins.tableMatch := by
  unfold decodeOpcode at h
  split at h <;> rename_i hc
  case h_1 => rw [canonicalOpcode_of_examined hc (by decide)]; exact decodeClass0_spec h
  case h_9 => rw [canonicalOpcode_of_examined hc (by decide)]; exact decodeClass8_spec hc h
  case h_15 => rw [canonicalOpcode_of_examined hc (by decide)]; exact decodeClassE_spec hc h
  case h_16 => rw [canonicalOpcode_of_examined hc (by decide)]; exact decodeClassF_spec hc h
  case h_6 | h_10 =>
    cases h
    rw [canonicalOpcode_of_unexamined hc (by decide)]
    exact ⟨rfl, encodeXyn_fields_zero hc, (and_class_mask op).trans (by rw [hc]; rfl)⟩
  case h_14 =>
    cases h
    rw [canonicalOpcode_of_examined hc (by decide)]
    exact ⟨decide_eq_true (fieldN_lt op), encodeXyn_fields hc rfl, (and_class_mask op).trans (by rw [hc]; rfl)⟩
  case h_4 | h_5 | h_7 | h_8 | h_13 =>
    cases h
    rw [canonicalOpcode_of_examined hc (by decide)]
    exact ⟨rfl, encodeXkk_fields hc, (and_class_mask op).trans (by rw [hc]; rfl)⟩
  case h_2 | h_3 | h_11 | h_12 =>
    cases h
    rw [canonicalOpcode_of_examined hc (by decide)]
    exact ⟨rfl, encodeNnn_fields hc, (and_class_mask op).trans (by rw [hc]; rfl)⟩
  case h_17 => cases h

end

/-- Two instructions are in one row of the opcode map (spec/30_encoding.md R74). -/
def Instr.sameRow (a b : Instr) : Prop := a.tableMask = b.tableMask ∧ a.tableMatch = b.tableMatch

/-- A word that matches a row decodes to an instruction of that row: its mask tells the fields the dispatch reads. -/
theorem decodeOpcode_of_row {op : Word} {ins : Instr} (h : op &&& ins.tableMask = ins.tableMatch) :
    ∃ found, decodeOpcode op = some found ∧ found.sameRow ins := by
  cases ins
  case cls | ret =>
    have hop : op = _ := (BitVec.and_allOnes (x := op)).symm.trans h
    exact ⟨_, hop ▸ rfl, rfl, rfl⟩
  case ldReg | or | and | xor | addReg | sub | shr | subn | shl =>
    obtain ⟨hc, hn⟩ := fields_of_nibble_mask h
    simp [decodeOpcode, decodeClass8, hc, hn, Instr.sameRow, Instr.tableMask, Instr.tableMatch]
  case skp | sknp =>
    obtain ⟨hc, hs⟩ := fields_of_byte_mask h
    simp [decodeOpcode, decodeClassE, hc, hs, Instr.sameRow, Instr.tableMask, Instr.tableMatch]
  case ldVxDt | ldVxK | ldDtVx | ldStVx | addI | ldF | ldB | storeRegs | loadRegs =>
    obtain ⟨hc, hs⟩ := fields_of_byte_mask h
    simp [decodeOpcode, decodeClassF, hc, hs, Instr.sameRow, Instr.tableMask, Instr.tableMatch]
  all_goals
    have hc := fieldClass_of_mask h
    simp [decodeOpcode, hc, Instr.sameRow, Instr.tableMask, Instr.tableMatch]

/-! ### The words that are refused -/

section
variable {op : Word}

theorem decodeClass0_eq_none : decodeClass0 op = none ↔ op ≠ 0x00E0 ∧ op ≠ 0x00EE := by
  unfold decodeClass0
  split_ifs with hcls hret
  · simp [hcls]
  · simp [hret]
  · exact ⟨fun _ => ⟨hcls, hret⟩, fun _ => rfl⟩

theorem decodeClass8_eq_none : decodeClass8 op = none ↔ fieldN op ∈ [0x8, 0x9, 0xA, 0xB, 0xC, 0xD, 0xF] := by
  have hn := fieldN_lt op
  unfold decodeClass8
  split
  case h_10 => simp_all; omega
  all_goals simp [*]

theorem decodeClassE_eq_none : decodeClassE op = none ↔ slice op.toNat 7 0 ∉ [0x9E, 0xA1] := by
  unfold decodeClassE
  split <;> simp_all

theorem decodeClassF_eq_none :
    decodeClassF op = none ↔ slice op.toNat 7 0 ∉ [0x07, 0x0A, 0x15, 0x18, 0x1E, 0x29, 0x33, 0x55, 0x65] := by
  unfold decodeClassF
  split <;> simp_all

end

/-! ### The statements -/

/-- Settles O1. -/
theorem decodeEncodeRoundTrip : Obligations.DecodeEncodeRoundTrip :=
  fun ins rest hwf => decode_bytes_of_some rest (decodeOpcode_encodeOpcode ins hwf)

/-- Settles O2. -/
theorem encodeDecodeCanonical : Obligations.EncodeDecodeCanonical := by
  intro op ins h
  obtain ⟨hwf, henc, -⟩ := decodeOpcode_spec h
  exact ⟨hwf, henc⟩

/-- Settles O3: a word decodes to one instruction, so that two rows it matches are the row of that instruction. -/
theorem decoderFollowsOpcodeMap : Obligations.DecoderFollowsOpcodeMap := by
  refine ⟨fun op ins h => ?_, fun _ _ h => decodeOpcode_of_row h, fun op a b ha hb => ?_⟩
  · obtain ⟨-, -, hrow⟩ := decodeOpcode_spec h
    exact hrow
  · obtain ⟨found, hfound, hmask, hmatch⟩ := decodeOpcode_of_row ha
    obtain ⟨found', hfound', hmask', hmatch'⟩ := decodeOpcode_of_row hb
    obtain rfl : found = found' := Option.some.inj (hfound.symm.trans hfound')
    exact ⟨hmask.symm.trans hmask', hmatch.symm.trans hmatch'⟩

/-- Settles O4: only the four classes with a dispatch of their own refuse a word. -/
theorem illegalWordsAreRefused : Obligations.IllegalWordsAreRefused := by
  intro op
  have hlt := fieldClass_lt op
  unfold decodeOpcode
  split <;> rename_i hc
  case h_1 => simp only [hc, decodeClass0_eq_none]; simp
  case h_9 => simp only [hc, decodeClass8_eq_none]; simp
  case h_15 => simp only [hc, decodeClassE_eq_none]; simp
  case h_16 => simp only [hc, decodeClassF_eq_none]; simp
  case h_17 => simp_all; omega
  all_goals simp [hc]

/-- Settles O5. -/
theorem wordsFromTheSpecDecode : Obligations.WordsFromTheSpecDecode := by
  refine ⟨?_, ?_, ?_, ?_, ?_, ?_, ?_, ?_, ?_, ?_⟩ <;> rfl

end Sys2Proof

/-!
PROOFS. What an event does (spec/00_scope.md R9), said once; and the invariant (spec/10_state.md R36), which holds at reset
and which every step keeps. An instruction starts in a state that is `Ready`: every operation of an instruction keeps that,
and moving `PC` ends in the invariant.
-/

namespace Sys2Proof.Machine

/-! ### What an event does -/

/-- What an event other than a `Step` makes of a state (spec/00_scope.md R9). -/
inductive EventEffect (s : State) : Event → State → Prop
  /-- A halted core does not react (spec/10_state.md R30). -/
  | halted {e : Event} (hh : s.halted ≠ none) : EventEffect s e s
  | reset {rom : List Byte} (hrom : rom.length ≤ 3584) : EventEffect s (.reset rom) (s.restart rom)
  | tick {now : Nat} (hh : s.halted = none) (hle : s.now ≤ now) : EventEffect s (.timerTick now) (s.decayTimers now)
  | keyDown {k : Key} (hh : s.halted = none) :
      EventEffect s (.keyDown k) { s with keys := s.keys.set k.val true k.isLt, wait := s.wait.press k }
  | keyUp {k : Key} (hh : s.halted = none) (hw : s.wait ≠ .awaitingRelease k) :
      EventEffect s (.keyUp k) { s with keys := s.keys.set k.val false k.isLt }
  | release {k : Key} (hh : s.halted = none) (hw : s.wait = .awaitingRelease k) :
      EventEffect s (.keyUp k) (({ s with keys := s.keys.set k.val false k.isLt } : State).completeWait k)
  | present :
      EventEffect s .present { s with display := s.display.presented, replies := s.replies ++ [.frame s.display] }
  | snapshot : EventEffect s .snapshot { s with replies := s.replies ++ [.dump s.debugDump] }
  | quit : EventEffect s .quit { s with ended := true }

/-- An event that is handled and gives a next state has its effect. -/
theorem State.handle_effect {s t : State} {e : Event} (hstep : ∀ now rnd, e ≠ .step now rnd)
    (h : s.handle e = .next t) : EventEffect s e t := by
  have hrunning : ¬s.halted.isSome = true → s.halted = none := fun hn => by simpa using hn
  cases e
  case step now rnd => exact absurd rfl (hstep now rnd)
  case reset rom =>
    rw [State.handle, State.onReset] at h
    split at h <;> cases h
    rename_i hrom
    exact .reset (Nat.not_lt.1 hrom)
  case timerTick now =>
    rw [State.handle, State.onTimerTick] at h
    split at h
    · rename_i hh; cases h; exact .halted (Option.isSome_iff_ne_none.1 hh)
    · rename_i hh
      split at h <;> cases h
      rename_i hle
      exact .tick (hrunning hh) (Nat.not_lt.1 hle)
  case keyDown k =>
    rw [State.handle, State.onKeyDown] at h
    split at h <;> rename_i hh <;> cases h
    · exact .halted (Option.isSome_iff_ne_none.1 hh)
    · exact .keyDown (hrunning hh)
  case keyUp k =>
    rw [State.handle, State.onKeyUp] at h
    split at h <;> rename_i hh <;> cases h
    · exact .halted (Option.isSome_iff_ne_none.1 hh)
    · split
      · rename_i hw; exact .release (hrunning hh) hw
      · rename_i hw; exact .keyUp (hrunning hh) hw
  case present => cases h; exact .present
  case snapshot => cases h; exact .snapshot
  case quit => cases h; exact .quit

/-- An event that is delivered and gives a next state is handled. -/
theorem State.handle_of_deliver {s t : State} {e : Event} (h : s.deliver e = .next t) : s.handle e = .next t := by
  rw [State.deliver] at h
  split at h
  · cases h
  · exact h

/-- What a step that gives a next state did: a halted core took the event off, the instruction cycle ran with the inputs
of its `Step` taken, or another event had its effect. -/
theorem step_effect {s t : State} (h : step s = .next t) :
    (s.halted ≠ none ∧ t = { s with inbox := s.inbox.tail }) ∨
    (∃ s0, s.takesStep s0 ∧ s0.runInstruction = .next t) ∨
    ∃ e rest, s.inbox = e :: rest ∧ EventEffect { s with inbox := rest } e t := by
  obtain ⟨-, s0, ⟨hi, rfl⟩ | ⟨now, rnd, rest, hi, rfl⟩, hh, rfl⟩ | htakes | ⟨e, rest, hi, hne, -, hdel⟩ :=
    step_cases s t h
  · exact .inl ⟨hh, by rw [hi, List.tail_nil, ← hi]⟩
  · exact .inl ⟨hh, by rw [hi, List.tail_cons]⟩
  · exact .inr (.inl htakes)
  · exact .inr (.inr ⟨e, rest, hi, State.handle_effect hne (State.handle_of_deliver hdel)⟩)

/-! ### The state after reset -/

theorem Config.initial_wf : Config.initial.wf :=
  ⟨by decide, by decide, Nat.succ_le_succ (Nat.zero_le _), rfl⟩

/-- The state after reset meets the invariant under every legal configuration, with any canonical memory and whatever
is kept of the environment (spec/70_reset_and_hazards.md R270; log 13). -/
theorem State.fresh_inv {c : Config} (hc : c.wf) {mem : List Host.Cell} (hmem : Memory.wf c.font mem)
    (inbox : List Event) (now draws : Nat) (replies : List Reply) :
    ({ State.fresh c with mem := mem, inbox := inbox, now := now, draws := draws, replies := replies } : State).Inv where
  config := hc
  memory := hmem
  display := ⟨List.length_replicate, List.length_replicate⟩
  delay := ⟨by simp [State.fresh], by simp [State.fresh]⟩
  sound := ⟨by simp [State.fresh], by simp [State.fresh]⟩
  index := Nat.zero_le _
  counter := (by decide : (0x200 : Word).toNat ≤ 0x10FE)
  depth := fun _ _ => Nat.zero_le _
  returns := by simp [State.fresh]
  waiting := fun h => absurd rfl h
  tone := by simp [State.fresh]

/-- Settles O52. -/
theorem invariantHoldsAtReset : Obligations.InvariantHoldsAtReset :=
  State.fresh_inv Config.initial_wf State.reset_memory_wf [] 0 0 []

/-! ### Timers that are legal -/

/-- A timer that is legal at a reading is legal at a later one. -/
theorem Timer.wf_later {T : Timer} {now now' : Nat} (h : T.wf now) (hle : now ≤ now') : T.wf now' :=
  ⟨h.1, fun t0 ht => (h.2 t0 ht).trans hle⟩

/-- A timer that was set is legal at the reading it was set at (spec/44_timers.md R192). -/
theorem Timer.set_wf (b : Byte) (now : Nat) : (Timer.set b now).wf now := by
  by_cases hb : b = 0
  · subst hb; exact ⟨⟨fun _ => rfl, fun _ => rfl⟩, fun _ ht => by cases ht⟩
  · rw [Timer.set, if_neg hb]
    exact ⟨⟨fun h => absurd h hb, fun h => by cases h⟩, fun _ ht => (Option.mem_some_iff.1 ht).ge⟩

/-- A decayed timer is legal at the reading it was decayed to. -/
theorem Timer.decay_wf {T : Timer} {period now now' : Nat} (h : T.wf now) (hle : now ≤ now') :
    (T.decay period now').1.wf now' := by
  obtain ⟨-, -, heq⟩ | ⟨-, t0, -, ht0, ⟨-, heq⟩ | ⟨-, v, -, hv, heq⟩⟩ := T.decay_cases period now now' h
  · rw [heq]; exact Timer.wf_later h hle
  · rw [heq]; exact ⟨by simp, by simp⟩
  · have hdiv := Nat.div_mul_le_self (now' - t0) period
    rw [heq]
    refine ⟨⟨fun h0 => absurd h0 hv, fun h0 => by cases h0⟩, fun t1 ht1 => ?_⟩
    cases Option.mem_some_iff.1 ht1
    omega

/-- The last signal says whether the sound timer runs, also after it was set (spec/44_timers.md R193, R197). -/
theorem soundSignals_level {audio : List Signal} {old : Byte} (h : audio.getLast? = some .toneOn ↔ old ≠ 0)
    (new : Byte) : (audio ++ soundSignals old new).getLast? = some .toneOn ↔ new ≠ 0 := by
  unfold soundSignals
  split_ifs with hnew hold
  · rw [List.getLast?_concat]; exact ⟨fun _ => hnew, fun _ => rfl⟩
  · rw [List.getLast?_concat]; exact ⟨fun hoff => absurd hoff (by decide), fun h0 => absurd h0 hnew⟩
  · rw [List.append_nil, h]; exact ⟨fun h0 => absurd h0 hold, fun h0 => absurd h0 hnew⟩

/-- The stack is full when it holds as many entries as a bounded depth allows (spec/10_state.md R24). -/
theorem State.stackFull_iff (s : State) : s.stackFull = true ↔ s.cfg.stackDepth = some s.stack.length := by
  unfold State.stackFull
  cases s.cfg.stackDepth with
  | none => simp
  | some depth => simp [eq_comm]

/-- A word sum that stays below 2 ^ 16 is the natural one. -/
theorem toNat_word_add {w : Word} {n : Nat} (h : w.toNat + n < 0x10000) :
    (w + BitVec.ofNat 16 n).toNat = w.toNat + n := by
  rw [BitVec.toNat_add, BitVec.toNat_ofNat]; omega

/-- The sum of a 12-bit address and a byte fits a word (spec/41_control_flow.md R135). -/
theorem State.toNat_jumpTarget (s : State) (nnn : Addr12) (x : Reg) :
    (addressOperand nnn + s.wideV x).toNat = nnn.toNat + (s.getV x).toNat := by
  rw [BitVec.toNat_add, toNat_addressOperand, State.wideV, BitVec.toNat_setWidth]; omega

/-- The address of a digit's glyph fits a word (spec/42_index_memory.md R152). -/
theorem toNat_glyphAddress {n : Nat} (hn : n ≤ 0x0F) : (BitVec.ofNat 16 (Config.glyphBytes * n)).toNat = 5 * n := by
  rw [BitVec.toNat_ofNat, Config.glyphBytes, Nat.mod_eq_of_lt (by omega)]

/-! ### Ready for an instruction -/

/-- The invariant holds, no wait is under way and `PC` is in the range of a fetch: an instruction may be executed. -/
structure State.Ready (s : State) : Prop where
  inv : s.Inv
  idle : s.wait = .idle
  fetch : s.fetchable

namespace State.Ready

section
variable {s : State} (h : s.Ready)
include h

theorem not_waiting {P : Prop} : s.wait ≠ .idle → P := fun hne => absurd h.idle hne

theorem setV (x : Reg) (b : Byte) : (s.setV x b).Ready where
  inv := { h.inv with waiting := h.not_waiting }
  idle := h.idle
  fetch := h.fetch

theorem setLogic (x : Reg) (b : Byte) : (s.setLogic x b).Ready where
  inv := { h.inv with waiting := h.not_waiting }
  idle := h.idle
  fetch := h.fetch

theorem setDataThenFlag (x : Reg) (data flag : Byte) : (s.setDataThenFlag x data flag).Ready :=
  (h.setV x data).setV vf flag

theorem setI {w : Word} (hw : w.toNat ≤ 0x1000) : (s.setI w).Ready where
  inv := { h.inv with index := hw, waiting := h.not_waiting }
  idle := h.idle
  fetch := h.fetch

theorem settleI {w : Word} (hw : w.toNat ≤ 0x1000) : (s.settleI w).Ready :=
  h.setI (by split <;> [exact h.inv.index; exact hw])

theorem raise (f : FaultRecord) : (s.raise f).Ready where
  inv := { h.inv with waiting := h.not_waiting }
  idle := h.idle
  fetch := h.fetch

theorem takeDraw : s.takeDraw.Ready where
  inv := { h.inv with waiting := h.not_waiting }
  idle := h.idle
  fetch := h.fetch

theorem writeByte {a : Nat} (ha : a ≤ 0xFFF) (b : Byte) : (s.writeByte a b).Ready where
  inv := { h.inv with
    memory := Memory.write_wf _ _ a b h.inv.memory (Nat.lt_succ_of_le ha), waiting := h.not_waiting }
  idle := h.idle
  fetch := h.fetch

theorem display {d : Display} (hd : d.wf s.cfg) : ({ s with display := d } : State).Ready where
  inv := { h.inv with display := hd, waiting := h.not_waiting }
  idle := h.idle
  fetch := h.fetch

theorem recordRect (x0 y0 n : Nat) : (s.recordRect x0 y0 n).Ready :=
  h.display (by split <;> exact h.inv.display)

/-- The delay timer set at a clock reading. -/
theorem setDelay (b : Byte) : ({ s.takeClock with dt := Timer.set b s.clockReading } : State).Ready where
  inv := { h.inv with
    delay := Timer.set_wf b s.clockReading
    sound := Timer.wf_later h.inv.sound s.now_le_clockReading
    waiting := h.not_waiting }
  idle := h.idle
  fetch := h.fetch

/-- The sound timer set at a clock reading, with its audio signals. -/
theorem setSound (b : Byte) : ({ s.takeClock with
    st := Timer.set b s.clockReading, audio := s.audio ++ soundSignals s.st.value b } : State).Ready where
  inv := { h.inv with
    delay := Timer.wf_later h.inv.delay s.now_le_clockReading
    sound := Timer.set_wf b s.clockReading
    waiting := h.not_waiting
    tone := soundSignals_level h.inv.tone b }
  idle := h.idle
  fetch := h.fetch

/-! The end of an instruction: `PC` moves. -/

theorem setPc {w : Word} (hw : w.toNat ≤ 0x10FE) : (s.setPc w).Inv :=
  { h.inv with counter := hw, waiting := h.not_waiting }

/-- The address of the next instruction is in the range of a return address. -/
theorem next_range : 0x202 ≤ (s.pc + 2).toNat ∧ (s.pc + 2).toNat ≤ 0x1000 := by
  obtain ⟨hlo, hhi⟩ := h.fetch
  have hpc : (s.pc + 2).toNat = s.pc.toNat + 2 := toNat_word_add (n := 2) (by omega)
  omega

theorem advance : s.advance.Inv := h.setPc (by have := h.next_range; omega)

theorem skipIf (c : Bool) : (s.skipIf c).Inv := by
  refine h.setPc ?_
  obtain ⟨hlo, hhi⟩ := h.fetch
  have hskip : (s.pc + 4).toNat = s.pc.toNat + 4 := toNat_word_add (n := 4) (by omega)
  have hnext := h.next_range
  split <;> omega

theorem push (hroom : s.stackFull = false) : (s.push (s.pc + 2)).Ready where
  inv := { h.inv with
    depth := fun d hd => by
      have hle := h.inv.depth d hd
      have hne : s.stack.length ≠ d := fun heq => by
        rw [s.stackFull_iff.2 (heq ▸ hd)] at hroom; cases hroom
      exact Nat.lt_of_le_of_ne hle hne
    returns := by
      intro a ha
      obtain rfl | ha := List.mem_cons.1 ha
      · exact h.next_range
      · exact h.inv.returns a ha
    waiting := h.not_waiting }
  idle := h.idle
  fetch := h.fetch

/-- `RET`: the entry popped is an address the stack may hold. -/
theorem pop {top : Word} {rest : List Word} (hs : s.stack = top :: rest) :
    ({ s with stack := rest, pc := top } : State).Inv := by
  have hmem : ∀ a ∈ rest, a ∈ s.stack := fun a ha => hs ▸ List.mem_cons_of_mem top ha
  have htop := h.inv.returns top (hs ▸ List.mem_cons_self)
  exact { h.inv with
    counter := by dsimp only; omega
    depth := fun d hd => by
      have := h.inv.depth d hd
      rw [hs, List.length_cons] at this
      exact Nat.le_of_succ_le this
    returns := fun a ha => h.inv.returns a (hmem a ha)
    waiting := h.not_waiting }

end

end State.Ready

/-! ### The transfers -/

/-- The state a part of an instruction has reached, whether it is done or a fault was raised. -/
def Attempt.state {α : Type} : Attempt α → State
  | .done _ s => s
  | .raised s => s

@[simp] theorem Attempt.state_done {α : Type} (a : α) (s : State) : (Attempt.done a s).state = s := rfl
@[simp] theorem Attempt.state_raised {α : Type} (s : State) : (Attempt.raised s : Attempt α).state = s := rfl

namespace State.Ready

theorem storeBytes (bytes : List Byte) {s : State} (h : s.Ready) (j : Nat) : (s.storeBytes bytes j).state.Ready := by
  induction bytes generalizing s j with
  | nil => exact h
  | cons b rest ih =>
    obtain ⟨ha, hw⟩ | ⟨-, hw⟩ := s.memWrite_cases (s.indirect j) b <;> simp only [State.storeBytes, hw]
    · exact ih (h.writeByte ha b) (j + 1)
    · exact h.raise _

theorem storeBlock (count : Nat) {s : State} (h : s.Ready) (j : Nat) : (s.storeBlock count j).state.Ready := by
  induction count generalizing s j with
  | zero => exact h
  | succ count ih =>
    obtain ⟨ha, hw⟩ | ⟨-, hw⟩ := s.memWrite_cases s.i.toNat (s.getV (Fin.ofNat 16 j)) <;>
      simp only [State.storeBlock, hw]
    · exact ih ((h.writeByte ha _).setI (by rw [State.writeByte_i, word_add_one _ ha]; omega)) (j + 1)
    · exact h.raise _

theorem loadBlock (count : Nat) {s : State} (h : s.Ready) (j : Nat) : (s.loadBlock count j).state.Ready := by
  induction count generalizing s j with
  | zero => exact h
  | succ count ih =>
    obtain ⟨ha, hr⟩ | ⟨-, hr⟩ := s.memRead_cases s.i.toNat <;> simp only [State.loadBlock, hr]
    · exact ih ((h.setV _ _).setI (by rw [word_add_one _ ha]; omega)) (j + 1)
    · exact h.raise _

theorem drawRows (x0 y0 count : Nat) {s : State} (h : s.Ready) (row : Nat) (any : Bool) :
    (State.drawRows x0 y0 s count row any).state.Ready := by
  induction count generalizing s row any with
  | zero => exact h
  | succ count ih =>
    obtain ⟨-, hr⟩ | ⟨-, hr⟩ := s.memRead_cases (s.indirect row) <;> simp only [State.drawRows, hr]
    · exact ih (h.display (s.drawRow_wf x0 (y0 + row) _ h.inv.display)) (row + 1) _
    · exact h.raise _

end State.Ready

/-! ### Instructions -/

/-- The wait starts at the `LD Vx, K` at `PC`, or goes on there. -/
theorem State.Inv.wait_at {s : State} (h : s.Inv) (hh : s.halted = none) (hf : s.fetchable) {x : Reg}
    (hd : decodeOpcode s.wordAtPc = some (.ldVxK x)) (w : Wait) : ({ s with wait := w } : State).Inv :=
  { h with waiting := fun _ => ⟨hh, hf, x, hd⟩ }

/-- An instruction other than `LD Vx, K` keeps the invariant. -/
theorem State.Ready.exec {s t : State} (h : s.Ready) {ins : Instr} (hk : ∀ x, ins ≠ .ldVxK x)
    (hexec : exec ins s = .next t) : t.Inv := by
  cases ins
  case ldVxK x => exact absurd rfl (hk x)
  case cls => cases hexec; exact (h.display ⟨List.length_replicate, List.length_replicate⟩).advance
  case seImm | sneImm | seReg | sneReg | skp | sknp => cases hexec; exact h.skipIf _
  case ldImm | addImm | ldReg | ldVxDt => cases hexec; exact (h.setV _ _).advance
  case or | and | xor => cases hexec; exact (h.setLogic _ _).advance
  case addReg | sub | shr | subn | shl => cases hexec; exact (h.setDataThenFlag _ _ _).advance
  case rnd => cases hexec; exact (h.takeDraw.setV _ _).advance
  case ldDtVx => cases hexec; exact (h.setDelay _).advance
  case ldStVx => cases hexec; exact (h.setSound _).advance
  case jp nnn => cases hexec; exact h.setPc (by rw [toNat_addressOperand]; omega)
  case jpV0 nnn =>
    cases hexec
    exact h.setPc (by rw [s.toNat_jumpTarget]; omega)
  case ldI nnn => cases hexec; exact (h.setI (by rw [toNat_addressOperand]; omega)).advance
  case addI x => cases hexec; exact (h.setI (by rw [toNat_word_mod_4096]; omega)).advance
  case ret =>
    simp only [Machine.exec, execRet] at hexec
    split at hexec <;> cases hexec
    · exact (h.raise _).inv
    · rename_i hs; exact h.pop hs
  case call nnn =>
    cases hexec
    split
    · exact (h.raise _).inv
    · rename_i hfull
      exact (h.push (Bool.eq_false_iff.2 hfull)).setPc (by rw [toNat_addressOperand]; omega)
  case ldF x =>
    simp only [Machine.exec, execLdF] at hexec
    split at hexec <;> cases hexec
    · exact (h.raise _).inv
    · rename_i hdigit
      exact (h.setI (by rw [toNat_glyphAddress (Nat.not_lt.1 hdigit)]; omega)).advance
  case ldB x =>
    have hr := h.storeBytes [hundreds (s.getV x), tens (s.getV x), units (s.getV x)] 0
    simp only [Machine.exec, execLdB] at hexec
    split at hexec <;> rename_i ha <;> cases hexec <;> rw [ha] at hr
    · exact hr.inv
    · exact hr.advance
  case storeRegs x =>
    have hr := h.storeBlock (x.val + 1) 0
    simp only [Machine.exec, execStoreRegs] at hexec
    split at hexec <;> rename_i ha <;> cases hexec <;> rw [ha] at hr
    · exact hr.inv
    · exact (hr.settleI h.inv.index).advance
  case loadRegs x =>
    have hr := h.loadBlock (x.val + 1) 0
    simp only [Machine.exec, execLoadRegs] at hexec
    split at hexec <;> rename_i ha <;> cases hexec <;> rw [ha] at hr
    · exact hr.inv
    · exact (hr.settleI h.inv.index).advance
  case drw x y n =>
    have hr := h.drawRows (s.anchorX x) (s.anchorY y) n 0 false
    simp only [Machine.exec, execDrw] at hexec
    split at hexec <;> rename_i ha <;> cases hexec <;> rw [ha] at hr
    · exact hr.inv
    · exact ((hr.recordRect _ _ _).setV _ _).advance

/-- During a wait the instruction at `PC` is an `LD Vx, K`. -/
theorem State.Inv.waits_at_ldVxK {s : State} (h : s.Inv) {ins : Instr} (hd : decodeOpcode s.wordAtPc = some ins)
    (hw : s.wait ≠ .idle) : ∃ x, ins = .ldVxK x := by
  obtain ⟨-, -, x, hx⟩ := h.waiting hw
  exact ⟨x, Option.some.inj (hd.symm.trans hx)⟩

/-- The instruction cycle keeps the invariant. -/
theorem State.Inv.runInstruction {s t : State} (h : s.Inv) (hh : s.halted = none)
    (hrun : s.runInstruction = .next t) : t.Inv := by
  obtain ⟨hout, heq⟩ | ⟨-, hnone, heq⟩ | ⟨hf, ins, hd, heq⟩ := s.runInstruction_cases <;> rw [heq] at hrun
  · cases hrun
    refine { h with waiting := fun hw => ?_ }
    obtain ⟨-, ⟨hlo, hhi⟩, -⟩ := h.waiting hw
    omega
  · cases hrun
    refine { h with waiting := fun hw => ?_ }
    obtain ⟨-, -, x, hx⟩ := h.waiting hw
    rw [hnone] at hx; cases hx
  · by_cases hk : ∃ x, ins = .ldVxK x
    · obtain ⟨x, rfl⟩ := hk
      cases hrun
      exact h.wait_at hh hf hd _
    · have hidle : s.wait = .idle := by
        by_contra hw
        exact hk (h.waits_at_ldVxK hd hw)
      exact State.Ready.exec ⟨h, hidle, hf⟩ (fun x hx => hk ⟨x, hx⟩) hrun

/-! ### Events -/

/-- The inputs of a `Step` keep the invariant. -/
theorem State.Inv.takesStep {s s0 : State} (h : s.Inv) (hs : s.takesStep s0) : s0.Inv := by
  obtain ⟨-, -, ⟨-, rfl⟩ | ⟨now, rnd, rest, -, hle, rfl⟩⟩ := hs
  · exact { h with }
  · exact { h with delay := Timer.wf_later h.delay hle, sound := Timer.wf_later h.sound hle }

theorem State.takesStep_running {s s0 : State} (hs : s.takesStep s0) : s0.halted = none := by
  obtain ⟨-, hh, ⟨-, rfl⟩ | ⟨now, rnd, rest, -, hle, rfl⟩⟩ := hs
  · exact hh
  · exact hh

/-- The events that write no more than the inbox, the replies, the keys and the end of the run. -/
theorem State.Inv.of_sameMachine {s t : State} (h : s.Inv)
    (heq : t = { s with inbox := t.inbox, replies := t.replies, keys := t.keys, ended := t.ended }) : t.Inv := by
  rw [heq]
  exact { h with }

/-- The sound timer's decay and its signal keep the audio level (spec/44_timers.md R195, R197). -/
theorem State.Inv.decayTimers {s : State} (h : s.Inv) {now : Nat} (hle : s.now ≤ now) : (s.decayTimers now).Inv :=
  { h with
    delay := Timer.decay_wf h.delay hle
    sound := Timer.decay_wf h.sound hle
    tone := by
      have htone := h.tone
      obtain ⟨-, -, heq⟩ | ⟨hne, t0, -, -, ⟨-, heq⟩ | ⟨-, v, -, hv, heq⟩⟩ :=
        s.st.decay_cases s.cfg.timerPeriod s.now now h.sound
      · simpa [State.decayTimers, heq] using htone
      · simp [State.decayTimers, heq]
      · rw [State.decayTimers, heq]
        exact ⟨fun _ => hv, fun _ => htone.2 hne⟩ }

theorem State.Inv.onKeyDown {s : State} (h : s.Inv) (k : Key) :
    ({ s with keys := s.keys.set k.val true k.isLt, wait := s.wait.press k } : State).Inv :=
  { h with
    waiting := fun hw => h.waiting fun hidle => hw (by
      show s.wait.press k = .idle
      rw [hidle]; rfl) }

/-- The release that ends a wait moves `PC` on from the `LD Vx, K` it stands at. -/
theorem State.Inv.completeWait {s : State} (h : s.Inv) {k : Key} (hw : s.wait = .awaitingRelease k) :
    (s.completeWait k).Inv := by
  obtain ⟨-, ⟨hlo, hhi⟩, -⟩ := h.waiting (by rw [hw]; exact Wait.noConfusion)
  have hpc : (s.pc + 2).toNat = s.pc.toNat + 2 := toNat_word_add (n := 2) (by omega)
  exact { h with counter := hpc.trans_le (by omega), waiting := fun hne => absurd rfl hne }

theorem State.Inv.restart {s : State} (h : s.Inv) {rom : List Byte} (hrom : rom.length ≤ 3584) :
    (s.restart rom).Inv :=
  State.fresh_inv h.config
    (Memory.load_wf _ rom [] _ ⟨List.Pairwise.nil, by simp⟩ (by simp [Config.progBase, Config.memSize]; omega)) _ _ _ _

/-- Every event but a `Step` keeps the invariant. -/
theorem State.Inv.event {s t : State} (h : s.Inv) {e : Event} (heffect : EventEffect s e t) : t.Inv := by
  cases heffect with
  | halted hh => exact h
  | reset hrom => exact h.restart hrom
  | tick hh hle => exact h.decayTimers hle
  | keyDown hh => exact h.onKeyDown _
  | keyUp hh hw => exact h.of_sameMachine rfl
  | release hh hw => exact State.Inv.completeWait (h.of_sameMachine rfl) hw
  | present => exact { h with display := ⟨h.display.1, List.length_replicate.trans h.display.2⟩ }
  | snapshot => exact h.of_sameMachine rfl
  | quit => exact h.of_sameMachine rfl

/-- Settles O53. -/
theorem stepKeepsTheInvariant : Obligations.StepKeepsTheInvariant := by
  intro s t hinv h
  obtain ⟨-, rfl⟩ | ⟨s0, hs0, hrun⟩ | ⟨e, rest, -, heffect⟩ := step_effect h
  · exact hinv.of_sameMachine rfl
  · exact (hinv.takesStep hs0).runInstruction (State.takesStep_running hs0) hrun
  · exact State.Inv.event (hinv.of_sameMachine rfl) heffect

end Sys2Proof.Machine

/-!
PROOFS. The dirty tracking is not observable (spec/10_state.md R27). `viewed` forgets the tracking and the replies: two
states are of one view exactly if it makes them equal, and forgetting before a step or after it gives the same view of
the outcome.
-/

namespace Sys2Proof.Machine

/-- The state with its dirty tracking and its replies forgotten. -/
def State.viewed (s : State) : State :=
  { s with display := { fb := s.display.fb, dirtyRows := [], dirtyRects := [], clearPending := false }, replies := [] }

theorem State.sameView_iff (s t : State) : s.sameView t ↔ s.viewed = t.viewed := by
  constructor
  · intro h
    rw [h]; rfl
  · intro h
    obtain ⟨⟩ := s
    obtain ⟨⟩ := t
    simp only [State.viewed, State.mk.injEq, Display.mk.injEq] at h
    simp [State.sameView, h]

/-- The outcome with the tracking of its next state forgotten. -/
def viewedOutcome : Result → Result
  | .next s => .next s.viewed
  | .fault f => .fault f
  | .refused r => .refused r

/-- A part of an instruction with the tracking of the state it reached forgotten. -/
def Attempt.viewed {α : Type} : Attempt α → Attempt α
  | .done a s => .done a s.viewed
  | .raised s => .raised s.viewed

@[simp] theorem Attempt.viewed_done {α : Type} (a : α) (s : State) :
    (Attempt.done a s).viewed = .done a s.viewed := rfl
@[simp] theorem Attempt.viewed_raised {α : Type} (s : State) :
    (Attempt.raised s : Attempt α).viewed = .raised s.viewed := rfl

/-! ### Memory accesses and transfers -/

theorem State.memRead_viewed (s : State) (a : Nat) : s.viewed.memRead a = (s.memRead a).viewed := by
  unfold State.memRead; split <;> rfl

theorem State.memWrite_viewed (s : State) (a : Nat) (b : Byte) : s.viewed.memWrite a b = (s.memWrite a b).viewed := by
  unfold State.memWrite; split <;> rfl

theorem State.fetch_viewed (s : State) : s.viewed.fetch = s.fetch.viewed := by
  unfold State.fetch
  rw [show s.viewed.pc = s.pc from rfl]
  split <;> rfl

theorem State.storeBytes_viewed (bytes : List Byte) (s : State) (j : Nat) :
    s.viewed.storeBytes bytes j = (s.storeBytes bytes j).viewed := by
  induction bytes generalizing s j with
  | nil => rfl
  | cons b rest ih =>
    have hw := s.memWrite_viewed (s.indirect j) b
    have hind : s.viewed.indirect j = s.indirect j := rfl
    simp only [State.storeBytes, hind, hw]
    cases s.memWrite (s.indirect j) b with
    | done _ t => exact ih t (j + 1)
    | raised t => rfl

theorem State.storeBlock_viewed (count : Nat) (s : State) (j : Nat) :
    s.viewed.storeBlock count j = (s.storeBlock count j).viewed := by
  induction count generalizing s j with
  | zero => rfl
  | succ count ih =>
    have hw : s.viewed.memWrite s.viewed.i.toNat (s.viewed.getV (Fin.ofNat 16 j)) =
        (s.memWrite s.i.toNat (s.getV (Fin.ofNat 16 j))).viewed := s.memWrite_viewed _ _
    simp only [State.storeBlock, hw]
    cases s.memWrite s.i.toNat (s.getV (Fin.ofNat 16 j)) with
    | done _ t => exact ih (t.setI (t.i + 1)) (j + 1)
    | raised t => rfl

theorem State.loadBlock_viewed (count : Nat) (s : State) (j : Nat) :
    s.viewed.loadBlock count j = (s.loadBlock count j).viewed := by
  induction count generalizing s j with
  | zero => rfl
  | succ count ih =>
    have hr : s.viewed.memRead s.viewed.i.toNat = (s.memRead s.i.toNat).viewed := s.memRead_viewed _
    simp only [State.loadBlock, hr]
    cases s.memRead s.i.toNat with
    | done b t => exact ih ((t.setV (Fin.ofNat 16 j) b).setI (t.i + 1)) (j + 1)
    | raised t => rfl

/-! ### Drawing -/

/-- The cells and the collision of a composited row do not rest on the tracking. -/
theorem Display.composite_cells {d d' : Display} (h : d.fb = d'.fb) (w hgt x0 y : Nat) (b : Byte) :
    (d.composite w hgt x0 y b).1.fb = (d'.composite w hgt x0 y b).1.fb ∧
      (d.composite w hgt x0 y b).2 = (d'.composite w hgt x0 y b).2 := by
  unfold Display.composite
  split
  · exact ⟨h, rfl⟩
  · refine List.foldl_rel (r := fun p q : Display × Bool => p.1.fb = q.1.fb ∧ p.2 = q.2) ⟨h, rfl⟩ ?_
    rintro j - p q ⟨hfb, hhit⟩
    have hcell : p.1.cell w (x0 + j) y = q.1.cell w (x0 + j) y := by rw [Display.cell, hfb]; rfl
    unfold Display.plotBit
    split
    · exact ⟨hfb, hhit⟩
    · split
      · exact ⟨by simp only [hfb, hcell], by simp only [hhit, hcell]⟩
      · exact ⟨hfb, hhit⟩

/-- Of a display only its cells are seen. -/
theorem State.viewed_display (s : State) {d d' : Display} (h : d.fb = d'.fb) :
    ({ s with display := d } : State).viewed = ({ s with display := d' } : State).viewed := by
  simp only [State.viewed, h]

theorem State.drawRow_viewed (s : State) (x0 y : Nat) (b : Byte) :
    (s.viewed.drawRow x0 y b).1.viewed = (s.drawRow x0 y b).1.viewed ∧
      (s.viewed.drawRow x0 y b).2 = (s.drawRow x0 y b).2 := by
  obtain ⟨hfb, hhit⟩ := Display.composite_cells (d := s.viewed.display) (d' := s.display) rfl
    s.cfg.displayW s.cfg.displayH x0 y b
  exact ⟨s.viewed_display hfb, hhit⟩

theorem State.drawRows_viewed (x0 y0 count : Nat) (s : State) (row : Nat) (any : Bool) :
    (State.drawRows x0 y0 s.viewed count row any).viewed = (State.drawRows x0 y0 s count row any).viewed := by
  induction count generalizing s row any with
  | zero => rfl
  | succ count ih =>
    have hr := s.memRead_viewed (s.indirect row)
    have hind : s.viewed.indirect row = s.indirect row := rfl
    simp only [State.drawRows, hind, hr]
    cases s.memRead (s.indirect row) with
    | raised t => rfl
    | done b t =>
      obtain ⟨hview, hhit⟩ := t.drawRow_viewed x0 (y0 + row) b
      simp only [Attempt.viewed_done, hhit]
      rw [← ih (t.drawRow x0 (y0 + row) b).1, ← hview, ih]

theorem State.recordRect_viewed (s : State) (x0 y0 n : Nat) : (s.recordRect x0 y0 n).viewed = s.viewed := by
  refine s.viewed_display ?_
  split <;> rfl

/-! ### Instructions and events -/

theorem exec_viewed (ins : Instr) (s : State) : viewedOutcome (exec ins s.viewed) = viewedOutcome (exec ins s) := by
  cases ins
  case ret =>
    simp only [exec, execRet]
    rw [show s.viewed.stack = s.stack from rfl]
    cases s.stack <;> rfl
  case call nnn =>
    simp only [exec, execCall]
    rw [show s.viewed.stackFull = s.stackFull from rfl]
    cases s.stackFull <;> rfl
  case ldF x =>
    simp only [exec, execLdF]
    rw [show s.viewed.getV x = s.getV x from rfl]
    split <;> rfl
  case ldB x =>
    simp only [exec, execLdB]
    rw [show s.viewed.getV x = s.getV x from rfl, State.storeBytes_viewed]
    cases s.storeBytes _ 0 <;> rfl
  case storeRegs x =>
    simp only [exec, execStoreRegs]
    rw [State.storeBlock_viewed]
    cases s.storeBlock _ 0 <;> rfl
  case loadRegs x =>
    simp only [exec, execLoadRegs]
    rw [State.loadBlock_viewed]
    cases s.loadBlock _ 0 <;> rfl
  case drw x y n =>
    have hrows := State.drawRows_viewed (s.anchorX x) (s.anchorY y) n s 0 false
    simp only [exec, execDrw]
    rw [show s.viewed.anchorX x = s.anchorX x from rfl, show s.viewed.anchorY y = s.anchorY y from rfl]
    generalize State.drawRows _ _ s.viewed n 0 false = a at hrows
    generalize State.drawRows _ _ s n 0 false = b at hrows
    cases a with
    | raised t =>
      cases b with
      | raised u =>
        injection hrows with hview
        exact congrArg Host.Outcome.next hview
      | done any u => cases hrows
    | done any t =>
      cases b with
      | raised u => cases hrows
      | done any' u =>
        injection hrows with hany hview
        have hrect : (t.recordRect (s.anchorX x) (s.anchorY y) n).viewed =
            (u.recordRect (s.anchorX x) (s.anchorY y) n).viewed := by
          rw [State.recordRect_viewed, State.recordRect_viewed, hview]
        rw [hany]
        exact congrArg (fun w : State => Host.Outcome.next (w.setV vf (flagByte any')).advance) hrect
  all_goals rfl

theorem State.runInstruction_viewed (s : State) :
    viewedOutcome s.viewed.runInstruction = viewedOutcome s.runInstruction := by
  unfold State.runInstruction
  rw [State.fetch_viewed]
  cases s.fetch with
  | raised t => rfl
  | done op t =>
    simp only [Attempt.viewed_done]
    cases decodeOpcode op with
    | none => rfl
    | some ins => exact exec_viewed ins t

theorem State.handle_viewed (s : State) (e : Event) :
    viewedOutcome (s.viewed.handle e) = viewedOutcome (s.handle e) := by
  have hhalted : s.viewed.halted = s.halted := rfl
  have hnow : s.viewed.now = s.now := rfl
  cases e
  case reset rom => simp only [State.handle, State.onReset]; split <;> rfl
  case step now rnd =>
    simp only [State.handle, State.onStep, hhalted, hnow]
    split
    · rfl
    · split
      · rfl
      · exact State.runInstruction_viewed { s with now := now, stepRnd := some rnd }
  case timerTick now =>
    simp only [State.handle, State.onTimerTick, hhalted, hnow]
    split
    · rfl
    · split <;> rfl
  case keyDown k => simp only [State.handle, State.onKeyDown, hhalted]; split <;> rfl
  case keyUp k =>
    have hwait : s.viewed.wait = s.wait := rfl
    simp only [State.handle, State.onKeyUp, hhalted, hwait]
    split
    · rfl
    · split <;> rfl
  case present | snapshot | quit => rfl

theorem step_viewed (s : State) : viewedOutcome (step s.viewed) = viewedOutcome (step s) := by
  have hinbox : s.viewed.inbox = s.inbox := rfl
  have hended : s.viewed.ended = s.ended := rfl
  have hhalted : s.viewed.halted = s.halted := rfl
  unfold step State.nextEvent
  rw [hinbox]
  cases s.inbox with
  | nil =>
    simp only [hended, State.onFreeStep, hhalted]
    split
    · rfl
    · split
      · rfl
      · exact State.runInstruction_viewed { s with stepRnd := none }
  | cons e rest =>
    simp only [State.deliver, hended]
    split
    · rfl
    · exact State.handle_viewed { s with inbox := rest } e

/-- Settles O56: both steps have the view of the step taken with the tracking forgotten. -/
theorem dirtyTrackingIsNotObservable : Obligations.DirtyTrackingIsNotObservable := by
  intro s t hst
  have hview : viewedOutcome (step s) = viewedOutcome (step t) := by
    rw [← step_viewed s, (s.sameView_iff t).1 hst, step_viewed t]
  refine ⟨fun s' hs => ?_, fun f hs => ?_, fun r hs => ?_⟩ <;> rw [hs] at hview
  · cases ht : step t with
    | next t' => rw [ht] at hview; injection hview with hview; exact ⟨t', rfl, (s'.sameView_iff t').2 hview⟩
    | fault f | refused r => rw [ht] at hview; cases hview
  · cases ht : step t with
    | fault f' => cases f; cases f'; rfl
    | next t' | refused r => rw [ht] at hview; cases hview
  · cases ht : step t with
    | refused r' => rw [ht] at hview; injection hview with hview; rw [hview]
    | next t' | fault f => rw [ht] at hview; cases hview

end Sys2Proof.Machine

/-!
PROOFS. `LD B` and the block transfers (spec/42_index_memory.md): the faults of the transfers for every `I`, what the
stored bytes are, and the statements.
-/

namespace Sys2Proof.Machine

/-! ### The faults, wherever `I` stands -/

theorem State.faultAddress_inside {s : State} (h : s.i.toNat ≤ 0x1000) : s.faultAddress = 0x1000 := Nat.max_eq_right h

theorem State.faultAddress_beyond {s : State} (h : 0x1000 < s.i.toNat) : s.faultAddress = s.i.toNat :=
  Nat.max_eq_left h.le

theorem State.memWrite_beyond {s : State} {a : Nat} (h : 0xFFF < a) (b : Byte) :
    s.memWrite a b = .raised (s.raise (.addressBounds a)) := if_pos h

theorem State.memRead_beyond {s : State} {a : Nat} (h : 0xFFF < a) :
    s.memRead a = .raised (s.raise (.addressBounds a)) := if_pos h

theorem holdsBytes_nil (s : State) (f : FaultRecord) (base : Nat) : holdsBytes s (s.raise f) [] base :=
  fun _ => (if_neg (by rw [List.length_nil]; omega)).symm

/-- Byte stores that run past the memory: those below 0x1000 are done and the first address beyond is latched. -/
theorem State.storeBytes_faults (s : State) (b : Byte) (rest : List Byte)
    (h : 0x1000 < s.i.toNat + (b :: rest).length) :
    ∃ t, s.storeBytes (b :: rest) 0 = .raised t ∧
      t = { s with mem := t.mem, halted := some (.addressBounds s.faultAddress) } ∧
      holdsBytes s t ((b :: rest).take (0x1000 - s.i.toNat)) s.i.toNat := by
  by_cases hi : s.i.toNat ≤ 0x1000
  · obtain ⟨hfit, -⟩ | ⟨-, t, hrun, hframe, hbytes⟩ := s.storeBytes_cases (b :: rest) 0 hi
    · omega
    · exact ⟨t, hrun, by rw [State.faultAddress_inside hi]; exact hframe, hbytes⟩
  · have hbeyond : 0x1000 < s.i.toNat := Nat.not_le.1 hi
    refine ⟨s.raise (.addressBounds s.i.toNat), ?_, by rw [State.faultAddress_beyond hbeyond]; rfl, ?_⟩
    · have hwrite := State.memWrite_beyond (s := s) (Nat.lt_of_succ_lt hbeyond) b
      simp only [State.storeBytes, State.indirect, Nat.add_zero, hwrite]
    · rw [Nat.sub_eq_zero_of_le hbeyond.le]; exact holdsBytes_nil s _ _

/-- A block store that runs past the memory. -/
theorem State.storeBlock_faults (s : State) (count : Nat) (h : 0x1000 < s.i.toNat + (count + 1)) :
    ∃ t, s.storeBlock (count + 1) 0 = .raised t ∧ t.i.toNat = s.faultAddress ∧
      t = { s with mem := t.mem, i := t.i, halted := some (.addressBounds s.faultAddress) } ∧
      holdsBytes s t ((s.regBytes (count + 1) 0).take (0x1000 - s.i.toNat)) s.i.toNat := by
  by_cases hi : s.i.toNat ≤ 0x1000
  · obtain ⟨hfit, -⟩ | ⟨-, t, hrun, hframe, hbytes⟩ := s.storeBlock_cases (count + 1) 0 hi
    · omega
    · rw [State.faultAddress_inside hi]
      have hti : t.i = 0x1000 := by rw [hframe]
      exact ⟨t, hrun, by rw [hti]; rfl, by rw [hti]; exact hframe, hbytes⟩
  · have hbeyond : 0x1000 < s.i.toNat := Nat.not_le.1 hi
    rw [State.faultAddress_beyond hbeyond]
    refine ⟨s.raise (.addressBounds s.i.toNat), ?_, rfl, rfl, ?_⟩
    · simp only [State.storeBlock, State.memWrite_beyond (s := s) (Nat.lt_of_succ_lt hbeyond)]
    · rw [Nat.sub_eq_zero_of_le hbeyond.le]; exact holdsBytes_nil s _ _

/-- A block load that runs past the memory. -/
theorem State.loadBlock_faults (s : State) (count : Nat) (hcount : count < 16)
    (h : 0x1000 < s.i.toNat + (count + 1)) :
    ∃ t, s.loadBlock (count + 1) 0 = .raised t ∧ t.i.toNat = s.faultAddress ∧
      t = { s with v := t.v, i := t.i, halted := some (.addressBounds s.faultAddress) } ∧
      ∀ r : Reg, t.getV r = if s.i.toNat + r.val < 0x1000 then s.readByte (s.i.toNat + r.val) else s.getV r := by
  by_cases hi : s.i.toNat ≤ 0x1000
  · obtain ⟨hfit, -⟩ | ⟨-, t, hrun, hframe, hregs⟩ := s.loadBlock_cases (count + 1) 0 (by omega) hi
    · omega
    · rw [State.faultAddress_inside hi]
      have hti : t.i = 0x1000 := by rw [hframe]
      refine ⟨t, hrun, by rw [hti]; rfl, by rw [hti]; exact hframe, fun r => ?_⟩
      rw [hregs r]
      exact if_congr (by omega) rfl rfl
  · have hbeyond : 0x1000 < s.i.toNat := Nat.not_le.1 hi
    rw [State.faultAddress_beyond hbeyond]
    refine ⟨s.raise (.addressBounds s.i.toNat), ?_, rfl, rfl, fun r => (if_neg (by omega)).symm⟩
    simp only [State.loadBlock, State.memRead_beyond (s := s) (Nat.lt_of_succ_lt hbeyond)]

/-! ### What was stored -/

/-- Bytes held are read back from where they stand. -/
theorem holdsBytes.readByte_add {s t : State} {bytes : List Byte} {base : Nat} (h : holdsBytes s t bytes base) {k : Nat}
    (hk : k < bytes.length) : t.readByte (base + k) = bytes.getD k 0 := by
  rw [h, if_pos (by omega), Nat.add_sub_cancel_left]

/-- Outside the bytes held memory is as before. -/
theorem holdsBytes.readByte_outside {s t : State} {bytes : List Byte} {base : Nat} (h : holdsBytes s t bytes base)
    {a : Nat} (ha : a < base ∨ base + bytes.length ≤ a) : t.readByte a = s.readByte a := by
  rw [h, if_neg (by omega)]

theorem getD_take_of_lt {bytes : List Byte} {k n : Nat} (hk : k < n) :
    (bytes.take n).getD k 0 = bytes.getD k 0 := by
  rw [List.getD_eq_getElem?_getD, List.getD_eq_getElem?_getD, List.getElem?_take_of_lt hk]

@[simp] theorem State.length_regBytes (s : State) (count j : Nat) : (s.regBytes count j).length = count := by
  rw [State.regBytes, List.length_map, List.length_range']

/-- The registers of a block transfer are V0, V1 and so on. -/
theorem State.getD_regBytes (s : State) {count : Nat} (r : Reg) (hr : r.val < count) :
    (s.regBytes count 0).getD r.val 0 = s.getV r := by
  rw [List.getD_eq_getElem _ _ (by rwa [State.length_regBytes])]
  simp [State.regBytes]

theorem toNat_hundreds (b : Byte) : (hundreds b).toNat = b.toNat / 100 := by
  rw [hundreds, BitVec.toNat_ofNat]; omega

theorem toNat_tens (b : Byte) : (tens b).toNat = b.toNat / 10 % 10 := by
  rw [tens, BitVec.toNat_ofNat]; omega

theorem toNat_units (b : Byte) : (units b).toNat = b.toNat % 10 := by
  rw [units, BitVec.toNat_ofNat]; omega

/-- `I` after a transfer is settled: past the block under the quirk, else as it was. -/
theorem State.toNat_settleI {s t : State} {n : Nat} (hcfg : t.cfg = s.cfg) (hi : t.i = s.i + BitVec.ofNat 16 n)
    (h : s.i.toNat + n ≤ 0x1000) :
    (t.settleI s.i).i.toNat = if s.cfg.quirkIncI = true then s.i.toNat + n else s.i.toNat := by
  rw [State.settleI_i, hcfg, hi]
  split
  · exact toNat_word_add (by omega)
  · rfl

/-! ### The statements -/

/-- Settles O24: the three digits are held at `I`. -/
theorem bcdStoreResult : Obligations.BcdStoreResult := by
  intro x s hi
  obtain ⟨-, t, hrun, hframe, hbytes⟩ | ⟨hout, -⟩ :=
    s.storeBytes_cases [hundreds (s.getV x), tens (s.getV x), units (s.getV x)] 0 (by omega)
  · have hexec : exec (.ldB x) s = .next t.advance := by rw [exec, execLdB, hrun]
    have hdigit := fun k hk => hbytes.readByte_add (k := k) hk
    refine ⟨t.advance, hexec, ?_, ?_, ?_, fun a ha => ?_, ?_, by rw [hframe]; rfl⟩
    · exact (congrArg BitVec.toNat (hdigit 0 (by simp))).trans (toNat_hundreds _)
    · exact (congrArg BitVec.toNat (hdigit 1 (by simp))).trans (toNat_tens _)
    · exact (congrArg BitVec.toNat (hdigit 2 (by simp))).trans (toNat_units _)
    · exact hbytes.readByte_outside (by simp only [List.length_cons, List.length_nil]; omega)
    · rw [State.advance_pc, hframe]
  · simp only [List.length_cons, List.length_nil] at hout; omega

/-- Settles O25: only the digits below 0x1000 are held. -/
theorem bcdStoreFaultsPartWay : Obligations.BcdStoreFaultsPartWay := by
  intro x s hi
  obtain ⟨t, hrun, hframe, hbytes⟩ := s.storeBytes_faults (hundreds (s.getV x)) [tens (s.getV x), units (s.getV x)]
    (by simp only [List.length_cons, List.length_nil]; omega)
  refine ⟨t, by rw [exec, execLdB, hrun], hframe, fun a => ?_⟩
  rw [hbytes a, List.length_take]
  simp only [List.length_cons, List.length_nil]
  split
  · rw [if_pos (by omega), getD_take_of_lt (by omega)]
  · rw [if_neg (by omega)]

/-- Settles O26. -/
theorem blockStoreResult : Obligations.BlockStoreResult := by
  intro x s hi
  obtain ⟨hfit, t, hrun, hframe, hbytes⟩ | ⟨hout, -⟩ := s.storeBlock_cases (x.val + 1) 0 (by omega)
  · have hexec : exec (.storeRegs x) s = .next (t.settleI s.i).advance := by rw [exec, execStoreRegs, hrun]
    refine ⟨_, hexec, fun r hr => ?_, fun a ha => ?_, ?_, ?_, by rw [hframe]; rfl⟩
    · have hlt : r.val < x.val + 1 := Nat.lt_succ_of_le hr
      exact (hbytes.readByte_add (by rwa [State.length_regBytes])).trans (s.getD_regBytes r hlt)
    · exact hbytes.readByte_outside (by rw [State.length_regBytes]; omega)
    · exact State.toNat_settleI (by rw [hframe]) (by rw [hframe]) hfit
    · rw [State.advance_pc, State.settleI_pc, hframe]
  · omega

/-- Settles O27. -/
theorem blockStoreFaultsPartWay : Obligations.BlockStoreFaultsPartWay := by
  intro x s hi
  obtain ⟨t, hrun, hti, hframe, hbytes⟩ := s.storeBlock_faults x.val (by omega)
  refine ⟨t, by rw [exec, execStoreRegs, hrun], hti, hframe, fun r hr => ?_, fun a ha => ?_⟩
  · rw [hbytes.readByte_add (by rw [List.length_take, State.length_regBytes]; omega), getD_take_of_lt (by omega)]
    exact s.getD_regBytes r (by omega)
  · exact hbytes.readByte_outside (by rw [List.length_take, State.length_regBytes]; omega)

/-- Settles O28. -/
theorem blockLoadResult : Obligations.BlockLoadResult := by
  intro x s hi
  obtain ⟨hfit, t, hrun, hframe, hregs⟩ | ⟨hout, -⟩ := s.loadBlock_cases (x.val + 1) 0 (by omega) (by omega)
  · have hexec : exec (.loadRegs x) s = .next (t.settleI s.i).advance := by rw [exec, execLoadRegs, hrun]
    refine ⟨_, hexec, fun r => ?_, ?_, ?_, by rw [hframe]; rfl, fun a => by rw [hframe]; rfl⟩
    · rw [State.getV_advance, State.getV_settleI, hregs r]
      exact if_congr (by rw [Fin.le_def]; omega) rfl rfl
    · exact State.toNat_settleI (by rw [hframe]) (by rw [hframe]) hfit
    · rw [State.advance_pc, State.settleI_pc, hframe]
  · omega

/-- Settles O29. -/
theorem blockLoadFaultsPartWay : Obligations.BlockLoadFaultsPartWay := by
  intro x s hi
  obtain ⟨t, hrun, hti, hframe, hregs⟩ := s.loadBlock_faults x.val x.isLt (by omega)
  exact ⟨t, by rw [exec, execLoadRegs, hrun], hti, hframe, hregs, fun a => by rw [hframe]; rfl⟩

end Sys2Proof.Machine

/-!
PROOFS. Instructions that cannot run part way (spec/40_alu.md, spec/41_control_flow.md, spec/42_index_memory.md,
spec/43_input.md, spec/44_timers.md): the register copy, the jump with offset, call and return, the font address, the key
skips, the start of the key wait, reading the delay timer, setting the sound timer.
-/

namespace Sys2Proof.Machine

/-- A register names a key that is down, or none: the keys are numbered 0 to 15 (spec/43_input.md R172). -/
theorem State.keyPressed_iff (s : State) (x : Reg) :
    s.keyPressed x = true ↔ ∃ k : Key, (s.getV x).toNat = k.val ∧ s.keys[k.val] = true := by
  rw [State.keyPressed, List.getD_eq_getElem?_getD]
  by_cases hlt : (s.getV x).toNat < 16
  · rw [List.getElem?_eq_getElem (by simpa using hlt), Option.getD_some]
    constructor
    · exact fun h => ⟨⟨_, hlt⟩, rfl, by simpa using h⟩
    · rintro ⟨k, hk, hdown⟩
      simpa [hk] using hdown
  · rw [List.getElem?_eq_none (by simpa using hlt), Option.getD_none]
    exact ⟨fun h => (Bool.false_ne_true h).elim, fun ⟨k, hk, _⟩ => absurd k.isLt (hk ▸ hlt)⟩

/-! ### The statements -/

/-- Settles O10. -/
theorem registerCopyResult : Obligations.RegisterCopyResult :=
  fun _ _ _ => ⟨_, rfl, State.setV_advance_spec rfl⟩

/-- Settles O18. -/
theorem jumpWithOffsetResult : Obligations.JumpWithOffsetResult := by
  intro nnn s
  obtain ⟨hpc, hframe⟩ := State.setPc_spec (s := s) (w := addressOperand nnn + s.wideV 0) rfl
  exact ⟨_, rfl, by rw [hpc, s.toNat_jumpTarget], hframe⟩

/-- Settles O19: the two cases are those of `stackFull`. -/
theorem callResult : Obligations.CallResult := by
  refine fun nnn s => ⟨fun hroom => ?_, fun hfull => ?_⟩
  · have hexec : exec (.call nnn) s = .next ((s.push (s.pc + 2)).setPc (addressOperand nnn)) := by
      rw [exec, execCall, if_neg fun h => hroom (s.stackFull_iff.1 h)]
    exact ⟨_, hexec, rfl, toNat_addressOperand nnn, rfl, fun _ => rfl⟩
  · exact ⟨s.raise _, by rw [exec, execCall, if_pos (s.stackFull_iff.2 hfull)], rfl⟩

/-- Settles O20: the two cases are those of the stack. -/
theorem returnResult : Obligations.ReturnResult := by
  refine ⟨rfl, fun s => ⟨fun top rest hs => ?_, fun hs => ?_⟩⟩
  · have hexec : exec .ret s = .next { s with stack := rest, pc := top } := by rw [exec, execRet, hs]
    exact ⟨_, hexec, rfl, rfl, rfl, fun _ => rfl⟩
  · exact ⟨s.raise _, by rw [exec, execRet, hs], rfl⟩

/-- Settles O23: the whole register is compared with 0x0F. -/
theorem fontAddressResult : Obligations.FontAddressResult := by
  refine fun x s => ⟨fun hdigit => ?_, fun hdigit => ⟨s.raise _, by rw [exec, execLdF, if_pos hdigit], rfl⟩⟩
  obtain ⟨hi, hframe⟩ := State.setI_advance_spec (s := s)
    (w := BitVec.ofNat 16 (Config.glyphBytes * (s.getV x).toNat)) rfl
  exact ⟨_, by rw [exec, execLdF, if_neg (Nat.not_lt.2 hdigit)], by rw [hi, toNat_glyphAddress hdigit], hframe⟩

/-- Settles O30: both instructions skip by `keyPressed`. -/
theorem keySkipsResult : Obligations.KeySkipsResult := by
  intro x s pressed hpressed
  have hkey : pressed ↔ s.keyPressed x = true := hpressed.trans (s.keyPressed_iff x).symm
  rw [hkey]
  obtain ⟨hdown, hup, hframe⟩ := State.skipIf_spec (s := s) (c := s.keyPressed x) rfl
  obtain ⟨hup', hdown', hframe'⟩ := State.skipIf_spec (s := s) (c := !s.keyPressed x) rfl
  exact ⟨⟨_, rfl, hdown, hup, hframe⟩, _, rfl, fun h => hup' (by simpa using h), fun h => hdown' (by simpa using h),
    hframe'⟩

/-- A wait that is under way is not started again (spec/43_input.md R174). -/
theorem Wait.start_of_waiting {w : Wait} (h : w ≠ .idle) : w.start = w := by
  cases w with
  | idle => exact absurd rfl h
  | awaitingPress | awaitingRelease k => rfl

/-- Settles O31. -/
theorem keyWaitStarts : Obligations.KeyWaitStarts :=
  fun _ _ => ⟨_, rfl, fun hidle => congrArg Wait.start hidle, Wait.start_of_waiting, rfl, fun _ => rfl⟩

/-- Settles O35. -/
theorem readDelayTimerResult : Obligations.ReadDelayTimerResult :=
  fun _ _ => ⟨_, rfl, State.setV_advance_spec rfl⟩

/-- Settles O37: timer and reading as for the delay timer, and the signals are `soundSignals`. -/
theorem setSoundTimerResult : Obligations.SetSoundTimerResult := by
  intro x s
  refine ⟨_, rfl, rfl, ?_, rfl, ?_, ?_, rfl, rfl, fun _ => rfl⟩
  · exact Timer.set_last (s.getV x) s.clockReading
  · exact s.now_le_clockReading
  · exact State.clockReading_of_carried

end Sys2Proof.Machine

/-!
PROOFS. The display instructions (spec/45_display.md): what the drawn rows leave on the display, the faults of a sprite for
every `I`, and the statements.
-/

namespace Sys2Proof.Machine

/-! ### Sprites -/

/-- The rows drawn from the first on are the sprite (spec/45_display.md R213). -/
theorem State.spriteBit_eq_rowsBit (s : State) (x0 y0 n c r : Nat) :
    s.spriteBit x0 y0 n c r = s.rowsBit x0 y0 0 n c r := by
  rw [State.spriteBit, State.rowsBit, rowBit, ← Bool.and_assoc, ← Bool.decide_and, State.indirect]
  congr 1
  rw [decide_eq_decide]; omega

/-- A sprite inside the memory, or of no rows, is drawn whole. -/
theorem State.drawRows_fits {s : State} (x0 y0 : Nat) {n : Nat} (hwf : s.display.wf s.cfg)
    (h : n = 0 ∨ s.i.toNat + n ≤ 0x1000) :
    ∃ t any, State.drawRows x0 y0 s n 0 false = .done any t ∧ t = { s with display := t.display } ∧
      DrawsTo s x0 y0 0 n false t.display any := by
  by_cases hn : n = 0
  · subst hn; exact ⟨s, false, rfl, rfl, DrawsTo.none s x0 y0 0 false hwf⟩
  · obtain ⟨-, hdone⟩ | ⟨hout, -⟩ := s.drawRows_cases x0 y0 n 0 false hwf (by omega)
    · exact hdone
    · omega

/-- A sprite that runs past the memory: the rows below 0x1000 are drawn and the first address beyond is latched. -/
theorem State.drawRows_faults {s : State} (x0 y0 : Nat) {n : Nat} (hwf : s.display.wf s.cfg) (hn : 0 < n)
    (h : 0x1000 < s.i.toNat + n) :
    ∃ t any, State.drawRows x0 y0 s n 0 false = .raised t ∧
      t = { s with display := t.display, halted := some (.addressBounds s.faultAddress) } ∧
      DrawsTo s x0 y0 0 (0x1000 - s.i.toNat) false t.display any := by
  by_cases hi : s.i.toNat ≤ 0x1000
  · obtain ⟨hfit, -⟩ | ⟨-, hraised⟩ := s.drawRows_cases x0 y0 n 0 false hwf hi
    · omega
    · rw [State.faultAddress_inside hi]; exact hraised
  · have hbeyond : 0x1000 < s.i.toNat := Nat.not_le.1 hi
    obtain ⟨m, rfl⟩ : ∃ m, n = m + 1 := ⟨n - 1, by omega⟩
    have hread := State.memRead_beyond (s := s) (Nat.lt_of_succ_lt hbeyond)
    refine ⟨s.raise (.addressBounds s.i.toNat), false, ?_, by rw [State.faultAddress_beyond hbeyond]; rfl, ?_⟩
    · simp only [State.drawRows, State.indirect, Nat.add_zero, hread]
    · rw [Nat.sub_eq_zero_of_le hbeyond.le]; exact DrawsTo.none s x0 y0 0 false hwf

/-- Recording the visible box adds to the rectangles, unless the sprite has no rows, and changes nothing else. -/
theorem State.recordRect_spec (s : State) (x0 y0 n : Nat) :
    (s.recordRect x0 y0 n).display.fb = s.display.fb ∧
    (s.recordRect x0 y0 n).display.dirtyRows = s.display.dirtyRows ∧
    (s.recordRect x0 y0 n).display.clearPending = s.display.clearPending ∧
    (s.recordRect x0 y0 n).display.dirtyRects = s.display.dirtyRects ++ (if n = 0 then []
      else [{ x := x0, y := y0, w := min 8 (s.cfg.displayW - x0), h := min n (s.cfg.displayH - y0) }]) := by
  unfold State.recordRect
  split
  · exact ⟨rfl, rfl, rfl, (List.append_nil _).symm⟩
  · exact ⟨rfl, rfl, rfl, rfl⟩

/-- The display is what the drawn rows left, whatever rectangles were recorded since. -/
theorem DrawsTo.spriteDrawn {s t : State} {x0 y0 n : Nat} {any : Bool} {d : Display}
    (h : DrawsTo s x0 y0 0 n false d any) (hcfg : t.cfg = s.cfg) (hfb : t.display.fb = d.fb)
    (hrows : t.display.dirtyRows = d.dirtyRows) (hpend : t.display.clearPending = d.clearPending) :
    s.spriteDrawn t x0 y0 n := by
  have hpixel : ∀ c r, t.pixel c r = d.cell s.cfg.displayW c r := fun c r => by
    rw [State.pixel, hcfg, Display.cell, hfb]; rfl
  refine ⟨⟨by rw [hfb]; exact h.size.1, by rw [hrows]; exact h.size.2⟩, hpend.trans h.pending, fun c r hon => ?_,
    fun r => ?_⟩
  · rw [hpixel, h.cell c r hon.1 hon.2, s.spriteBit_eq_rowsBit]; rfl
  · simp only [State.marked, hrows, h.mark r, s.spriteBit_eq_rowsBit]
    exact or_congr Iff.rfl ⟨fun ⟨hr, c, hc, hbit⟩ => ⟨c, ⟨hc, hr⟩, hbit⟩, fun ⟨c, hon, hbit⟩ => ⟨hon.2, c, hon.1, hbit⟩⟩

/-- A cell that lies under a 1 bit goes from 1 to 0 exactly if it was 1 (spec/45_display.md R211). -/
theorem State.spriteDrawn.cleared_iff {s t : State} {x0 y0 n c r : Nat} (h : s.spriteDrawn t x0 y0 n)
    (hon : s.onScreen c r) :
    s.spriteBit x0 y0 n c r = true ∧ s.pixel c r = true ↔ s.pixel c r = true ∧ t.pixel c r = false := by
  obtain ⟨-, -, hcell, -⟩ := h
  rw [hcell c r hon]
  cases s.pixel c r <;> simp

/-- The rows collided exactly if a cell went from 1 to 0. -/
theorem DrawsTo.hit_iff {s t : State} {x0 y0 n : Nat} {any : Bool} {d : Display}
    (h : DrawsTo s x0 y0 0 n false d any) (hdrawn : s.spriteDrawn t x0 y0 n) :
    any = true ↔ ∃ c r, s.onScreen c r ∧ s.pixel c r = true ∧ t.pixel c r = false := by
  rw [h.hit]
  constructor
  · rintro (hfalse | ⟨c, r, hc, hr, hbit, hwas⟩)
    · cases hfalse
    · exact ⟨c, r, ⟨hc, hr⟩, (hdrawn.cleared_iff ⟨hc, hr⟩).1 ⟨by rw [s.spriteBit_eq_rowsBit, hbit], hwas⟩⟩
  · rintro ⟨c, r, hon, hclear⟩
    obtain ⟨hbit, hwas⟩ := (hdrawn.cleared_iff hon).2 hclear
    exact .inr ⟨c, r, hon.1, hon.2, by rw [← s.spriteBit_eq_rowsBit, hbit], hwas⟩

theorem flagByte_zero_or_one (c : Bool) : flagByte c = 0 ∨ flagByte c = 1 := by
  obtain ⟨-, hflag⟩ | ⟨-, hflag⟩ := flagByte_cases c
  · exact .inr hflag
  · exact .inl hflag

theorem flagByte_eq_one_iff (c : Bool) : flagByte c = 1 ↔ c = true := by
  cases c <;> decide

/-- A list of zeros reads as 0 everywhere, also past its end. -/
theorem getD_replicate_false (n k : Nat) : (List.replicate n false).getD k false = false := by
  rw [List.getD_eq_getElem?_getD]
  exact List.getElem?_getD_replicate_default_eq false n k

/-- A display is its cells: two of one size that agree on the screen are equal. -/
theorem fb_eq_of_cells {d d' : Display} {w h : Nat} (hd : d.fb.length = w * h) (hd' : d'.fb.length = w * h)
    (hcell : ∀ c r, c < w → r < h → d.cell w c r = d'.cell w c r) : d.fb = d'.fb := by
  refine List.ext_getElem (hd.trans hd'.symm) fun k hk hk' => ?_
  have hlt : k < w * h := hd ▸ hk
  have hw : 0 < w := Nat.pos_of_mul_pos_right (Nat.zero_lt_of_lt hlt)
  have hk := hcell (k % w) (k / w) (Nat.mod_lt k hw) (Nat.div_lt_of_lt_mul hlt)
  have hidx : k / w * w + k % w = k := by rw [Nat.mul_comm]; exact Nat.div_add_mod k w
  rw [Display.cell, Display.cell, hidx] at hk
  rwa [List.getD_eq_getElem _ _ ‹_›, List.getD_eq_getElem _ _ ‹_›] at hk

/-! ### The statements -/

/-- Settles O41. -/
theorem clearScreenResult : Obligations.ClearScreenResult := by
  refine fun s => ⟨_, rfl, fun c r => ?_, ⟨List.length_replicate, List.length_replicate⟩, fun r hr => ?_, rfl, rfl, rfl,
    rfl, fun _ => rfl⟩
  · exact getD_replicate_false _ _
  · exact List.getD_replicate true hr

/-- Settles O42: the rows drawn are the sprite, and the collision of the rows is the flag. -/
theorem drawSpriteResult : Obligations.DrawSpriteResult := by
  intro x y n s x0 y0 hcfg hwf hfit hx hy
  obtain ⟨t, any, hrun, hframe, hdraws⟩ := State.drawRows_fits x0 y0 hwf hfit
  obtain ⟨hfb, hrows, hpend, hrects⟩ := t.recordRect_spec x0 y0 n
  have htcfg : t.cfg = s.cfg := by rw [hframe]
  have hexec : exec (.drw x y n) s = .next ((t.recordRect x0 y0 n).setV vf (flagByte any)).advance := by
    rw [exec, execDrw, State.anchorX, State.anchorY, ← hx, ← hy, hrun]
  obtain ⟨hv, hpc, -⟩ := State.setV_advance_spec (s := t.recordRect x0 y0 n) (x := vf) (b := flagByte any) rfl
  have hdrawn : s.spriteDrawn ((t.recordRect x0 y0 n).setV vf (flagByte any)).advance x0 y0 n :=
    hdraws.spriteDrawn htcfg hfb hrows hpend
  refine ⟨_, hexec, hdrawn, ?_, ?_, fun r hr => ?_, ?_, ?_, by rw [hframe]; rfl, fun a => by rw [hframe]; rfl⟩
  · rw [hv, if_pos rfl]; exact flagByte_zero_or_one any
  · rw [hv, if_pos rfl, flagByte_eq_one_iff, hdraws.hit_iff hdrawn]
  · rw [hv, if_neg hr, State.getV_recordRect, hframe]; rfl
  · exact hrects.trans (by rw [hdraws.rects, htcfg])
  · rw [hpc, State.recordRect_pc, hframe]

/-- Settles O43. -/
theorem drawSpriteFaultsPartWay : Obligations.DrawSpriteFaultsPartWay := by
  rintro x y n s _ _ hcfg hwf hn hout rfl rfl
  obtain ⟨t, any, hrun, hframe, hdraws⟩ := State.drawRows_faults (s.anchorX x) (s.anchorY y) hwf hn hout
  exact ⟨t, by rw [exec, execDrw, hrun], hdraws.spriteDrawn (by rw [hframe]) rfl rfl rfl, hdraws.rects, hframe,
    fun a => by rw [hframe]; rfl⟩

/-- Settles O44: the second draw meets the same anchor and the same bytes, and a cell toggled twice is as it was. -/
theorem drawingTwiceRestores : Obligations.DrawingTwiceRestores := by
  intro x y n s t u hcfg hwf hfit hx hy hst htu
  obtain ⟨t', hst', ⟨htwf, -, htcell, -⟩, -, -, htv, -, -, htframe, htbytes⟩ :=
    drawSpriteResult x y n s _ _ hcfg hwf (.inr hfit) rfl rfl
  obtain rfl : t' = t := by injection hst'.symm.trans hst
  have hcfg' : t'.cfg = s.cfg := by rw [htframe]
  have hi : t'.i = s.i := by rw [htframe]
  have hbit : ∀ x0 y0 c r, t'.spriteBit x0 y0 n c r = s.spriteBit x0 y0 n c r := fun x0 y0 c r => by
    rw [State.spriteBit, State.spriteBit, hi, htbytes]
  obtain ⟨u', htu', ⟨huwf, -, hucell, -⟩, -, huflag, -, -, -, huframe, -⟩ :=
    drawSpriteResult x y n t' _ _ (hcfg' ▸ hcfg) (hcfg' ▸ htwf) (.inr (hi ▸ hfit)) rfl rfl
  obtain rfl : u' = u := by injection htu'.symm.trans htu
  have hon' : ∀ c r, t'.onScreen c r ↔ s.onScreen c r := fun c r => by rw [State.onScreen, hcfg']
  have hback : ∀ c r, s.onScreen c r → u'.pixel c r = s.pixel c r := fun c r hon => by
    rw [hucell c r ((hon' c r).2 hon), htcell c r hon, hbit, htv x hx, htv y hy, hcfg', Bool.xor_assoc, Bool.xor_self,
      Bool.xor_false]
  have hcfg'' : u'.cfg = s.cfg := by rw [huframe]; exact hcfg'
  constructor
  · refine fb_eq_of_cells (by rw [huwf.1, hcfg']) hwf.1 fun c r hc hr => ?_
    have := hback c r ⟨hc, hr⟩
    rwa [State.pixel, hcfg''] at this
  · rw [huflag]
    refine exists_congr fun c => exists_congr fun r => ?_
    rw [hon' c r]
    exact and_congr_right fun hon => by rw [hback c r hon, and_comm]

end Sys2Proof.Machine

/-!
PROOFS. The decay of the timers (spec/44_timers.md section 3): what a tick does to one timer, as the statements put it,
that ticks compose, and their bounds.
-/

namespace Sys2Proof.Machine

/-- The decay of a legal timer is the tick of spec/44_timers.md R195. -/
theorem Timer.decay_tickedTo {T : Timer} {now0 : Nat} (h : T.wf now0) (period now : Nat) :
    Timer.tickedTo period now T (T.decay period now).1 := by
  obtain ⟨h0, hnone, heq⟩ | ⟨hne, t0, hsome, -, ⟨hk, heq⟩ | ⟨hk, v, hv, -, heq⟩⟩ := T.decay_cases period now0 now h <;>
    rw [heq]
  · exact ⟨fun _ => rfl, fun _ hne => absurd h0 hne⟩
  · refine ⟨fun h0 => absurd h0 hne, fun t1 _ ht1 => ?_⟩
    obtain rfl : t0 = t1 := Option.some.inj (hsome.symm.trans ht1)
    exact ⟨fun _ => ⟨rfl, rfl⟩, fun hlt => absurd hk (Nat.not_le.2 hlt)⟩
  · refine ⟨fun h0 => absurd h0 hne, fun t1 _ ht1 => ?_⟩
    obtain rfl : t0 = t1 := Option.some.inj (hsome.symm.trans ht1)
    exact ⟨fun hge => absurd hge (Nat.not_le.2 hk), fun _ => ⟨hv, rfl⟩⟩

/-- The decay reports exactly the timers that come to 0 (spec/44_timers.md R195). -/
theorem Timer.decay_ended_iff {T : Timer} {now0 : Nat} (h : T.wf now0) (period now : Nat) :
    (T.decay period now).2 = true ↔ T.value ≠ 0 ∧ (T.decay period now).1.value = 0 := by
  obtain ⟨h0, -, heq⟩ | ⟨hne, t0, -, -, ⟨-, heq⟩ | ⟨-, v, -, hv, heq⟩⟩ := T.decay_cases period now0 now h <;> rw [heq]
  · exact ⟨fun hfalse => (Bool.false_ne_true hfalse).elim, fun ⟨hne, _⟩ => absurd h0 hne⟩
  · exact ⟨fun _ => ⟨hne, rfl⟩, fun _ => rfl⟩
  · exact ⟨fun hfalse => (Bool.false_ne_true hfalse).elim, fun ⟨_, hzero⟩ => absurd hzero hv⟩

/-- The whole periods elapsed since a timestamp that has moved on by `k` of them. -/
theorem periods_after (now t0 k period : Nat) :
    (now - (t0 + k * period)) / period = (now - t0) / period - k := by
  rw [← Nat.sub_sub, Nat.mul_comm, Nat.sub_mul_div]

/-- A timestamp moved on by the whole periods elapsed is less than a period back (spec/44_timers.md R196 (b)). -/
theorem remainder_lt {now t0 period : Nat} (hp : 1 ≤ period) (hle : t0 ≤ now) :
    t0 + (now - t0) / period * period ≤ now ∧ now - (t0 + (now - t0) / period * period) < period := by
  have hdiv := Nat.div_add_mod (now - t0) period
  have hmod := Nat.mod_lt (now - t0) hp
  rw [Nat.mul_comm] at hdiv
  omega

/-- Settles O39: a running timer that has lost `k` periods has `k` fewer of them left to lose. -/
theorem timerDecayComposes : Obligations.TimerDecayComposes := by
  intro T period between now hp hwf hle
  obtain ⟨h0, -, heq⟩ | ⟨hne, t0, hlast, ht0, ⟨hk, heq⟩ | ⟨hk, v, hv, hv0, heq⟩⟩ :=
    T.decay_cases period between between hwf
  · rw [heq]
  · have hmono : (between - t0) / period ≤ (now - t0) / period := Nat.div_le_div_right (by omega)
    obtain ⟨h0, -⟩ | ⟨-, t1, hlast1, -, ⟨-, heq1⟩ | ⟨hk1, -⟩⟩ := T.decay_cases period between now hwf
    · exact absurd h0 hne
    · rw [heq, heq1]; rfl
    · obtain rfl : t0 = t1 := Option.some.inj (hlast.symm.trans hlast1)
      omega
  · have hmono : (between - t0) / period ≤ (now - t0) / period := Nat.div_le_div_right (by omega)
    have hwf1 := Timer.decay_wf (period := period) hwf le_rfl
    rw [heq] at hwf1 ⊢
    obtain ⟨hv0', -⟩ | ⟨-, t1, hlast1, -, hsecond⟩ := Timer.decay_cases _ period between now hwf1
    · exact absurd hv0' hv0
    obtain ⟨h0, -⟩ | ⟨-, t2, hlast2, -, honce⟩ := T.decay_cases period between now hwf
    · exact absurd h0 hne
    obtain rfl := Option.some.inj hlast1
    obtain rfl := Option.some.inj (hlast.symm.trans hlast2)
    rw [periods_after] at hsecond
    obtain ⟨hk1, heq1⟩ | ⟨hk1, v1, hv1, -, heq1⟩ := hsecond <;>
      obtain ⟨hk2, heq2⟩ | ⟨hk2, v2, hv2, -, heq2⟩ := honce
    · rw [heq1, heq2]
    · simp only at hk1; omega
    · simp only at hk1; omega
    · have hvalue : v1 = v2 := BitVec.eq_of_toNat_eq (by simp only at hv1; omega)
      rw [heq1, heq2, hvalue, Nat.add_assoc, ← Nat.add_mul, Nat.add_sub_cancel' hmono]

/-- Settles O40. -/
theorem timerDecayBounds : Obligations.TimerDecayBounds := by
  intro T period now hp hwf
  have hwf' := Timer.decay_wf (period := period) hwf le_rfl
  obtain ⟨h0, hnone, heq⟩ | ⟨hne, t0, -, ht0, ⟨-, heq⟩ | ⟨-, v, hv, -, heq⟩⟩ := T.decay_cases period now now hwf <;>
    rw [heq] at hwf' ⊢
  · exact ⟨le_rfl, fun _ => rfl, fun t1 ht1 => (by rw [hnone] at ht1; cases ht1), hwf'⟩
  · exact ⟨Nat.zero_le _, fun h0 => absurd h0 hne, fun t1 ht1 => (by cases ht1), hwf'⟩
  · refine ⟨hv.trans_le (Nat.sub_le _ _), fun h0 => absurd h0 hne, fun t1 ht1 => ?_, hwf'⟩
    obtain rfl := Option.some.inj ht1
    exact remainder_lt hp ht0

end Sys2Proof.Machine

/-!
PROOFS. The instruction cycle and the events of the environment (spec/30_encoding.md R84, spec/43_input.md,
spec/44_timers.md R195, spec/45_display.md R217, spec/60_exceptions.md, spec/70_reset_and_hazards.md).
-/

namespace Sys2Proof.Machine

/-! ### The instruction cycle -/

/-- Taking the inputs of a `Step` changes the inbox, the clock and the record of the inputs only (log 1, 2). -/
theorem State.takesStep_frame {s s0 : State} (h : s.takesStep s0) :
    s0 = { s with inbox := s0.inbox, now := s0.now, stepRnd := s0.stepRnd } ∧ s.now ≤ s0.now := by
  obtain ⟨-, -, ⟨-, rfl⟩ | ⟨now, rnd, rest, -, hle, rfl⟩⟩ := h
  · exact ⟨rfl, le_rfl⟩
  · exact ⟨rfl, hle⟩

theorem State.takesStep_wordAtPc {s s0 : State} (h : s.takesStep s0) : s0.wordAtPc = s.wordAtPc := by
  rw [(State.takesStep_frame h).1]; rfl

theorem State.takesStep_fetchable {s s0 : State} (h : s.takesStep s0) (hf : s.fetchable) : s0.fetchable := by
  rwa [State.fetchable, State.takesStep_pc h]

/-- With an instruction at `PC` the cycle executes it. -/
theorem State.runInstruction_of_decode {s : State} {ins : Instr} (hf : s.fetchable)
    (hd : decodeOpcode s.wordAtPc = some ins) : s.runInstruction = exec ins s := by
  obtain ⟨hout, -⟩ | ⟨-, hnone, -⟩ | ⟨-, ins', hd', hrun⟩ := s.runInstruction_cases
  · obtain ⟨hlo, hhi⟩ := hf; omega
  · rw [hd] at hnone; cases hnone
  · obtain rfl : ins = ins' := Option.some.inj (hd.symm.trans hd')
    exact hrun

/-- With no instruction at `PC` the cycle latches the word. -/
theorem State.runInstruction_of_illegal {s : State} (hf : s.fetchable) (hd : decodeOpcode s.wordAtPc = none) :
    s.runInstruction = .next (s.raise (.invalidOpcode s.wordAtPc)) := by
  obtain ⟨hout, -⟩ | ⟨-, -, hrun⟩ | ⟨-, ins, hd', -⟩ := s.runInstruction_cases
  · obtain ⟨hlo, hhi⟩ := hf; omega
  · exact hrun
  · rw [hd] at hd'; cases hd'

/-- A `Step`, free or queued, executes the instruction at `PC` with its inputs taken. -/
theorem step_executes {s s0 : State} {ins : Instr} (h : s.takesStep s0) (hf : s.fetchable)
    (hd : decodeOpcode s.wordAtPc = some ins) : step s = exec ins s0 := by
  rw [step_takes s s0 h]
  exact State.runInstruction_of_decode (State.takesStep_fetchable h hf) (by rw [State.takesStep_wordAtPc h, hd])

/-- Settles O6. -/
theorem stepRunsTheDecodedInstruction : Obligations.StepRunsTheDecodedInstruction := by
  intro s ins hh he hf _ hdecode
  have hd : decodeOpcode s.wordAtPc = some ins := decode_pair_eq_ok hdecode
  exact ⟨fun hi => step_executes ⟨he, hh, .inl ⟨hi, rfl⟩⟩ hf hd,
    fun now rnd rest hi hle => step_executes ⟨he, hh, .inr ⟨now, rnd, rest, hi, hle, rfl⟩⟩ hf hd⟩

/-- Settles O7. -/
theorem fetchAndDecodeFaults : Obligations.FetchAndDecodeFaults := by
  refine fun s s0 htakes => ⟨fun hout => step_fetch_fault htakes hout, fun hf op hop hnone => ?_⟩
  have hword : s0.wordAtPc = op := by
    rw [State.takesStep_wordAtPc htakes]
    exact BitVec.eq_of_toNat_eq ((toNat_joinBytes _ _).trans hop.symm)
  rw [step_takes s s0 htakes,
    State.runInstruction_of_illegal (State.takesStep_fetchable htakes hf) (by rw [hword, hnone]), hword]
  exact ⟨_, rfl, rfl⟩

/-- Settles O50: the jump writes the `PC` it stands at. -/
theorem finishedProgramStays : Obligations.FinishedProgramStays := by
  rintro s s0 ⟨-, nnn, hpc, hd⟩ hf htakes
  have htarget : addressOperand nnn = s0.pc :=
    BitVec.eq_of_toNat_eq (by rw [toNat_addressOperand, State.takesStep_pc htakes, hpc])
  rw [step_executes htakes hf hd, exec, execJp, htarget]; rfl

/-- During a wait a `Step` starts the same wait again (spec/43_input.md section 3, decision D33). -/
theorem step_during_wait {s s0 : State} (hinv : s.Inv) (hw : s.wait ≠ .idle) (htakes : s.takesStep s0) :
    step s = .next s0 := by
  obtain ⟨-, hf, x, hd⟩ := hinv.waiting hw
  have hw0 : s0.wait.start = s0.wait := Wait.start_of_waiting (by rw [(State.takesStep_frame htakes).1]; exact hw)
  rw [step_executes htakes hf hd, exec, execLdVxK, hw0]

/-- Settles O34. -/
theorem stepsDuringAWaitChangeNothing : Obligations.StepsDuringAWaitChangeNothing := by
  intro s hinv hw he
  obtain ⟨hh, -⟩ := hinv.waiting hw
  exact ⟨fun hi => step_during_wait hinv hw ⟨he, hh, .inl ⟨hi, rfl⟩⟩,
    fun now rnd rest hi hle => step_during_wait hinv hw ⟨he, hh, .inr ⟨now, rnd, rest, hi, hle, rfl⟩⟩⟩

/-! ### Keys -/

/-- A key after one was set. -/
theorem getElem_set_key (keys : Vector Bool 16) (k j : Key) (b : Bool) :
    (keys.set k.val b k.isLt)[j.val] = if j = k then b else keys[j.val] := by
  simp [Vector.getElem_set, Fin.ext_iff, eq_comm]

/-- A wait other than for a press does not look at the key that goes down (spec/43_input.md R170). -/
theorem Wait.press_of_not_awaiting {w : Wait} (h : w ≠ .awaitingPress) (k : Key) : w.press k = w := by
  cases w with
  | awaitingPress => exact absurd rfl h
  | idle | awaitingRelease j => rfl

/-- Settles O32. -/
theorem keyDownEffect : Obligations.KeyDownEffect := by
  intro s k rest hnext hh
  have hstep : step s = .next { s with
      inbox := rest, keys := s.keys.set k.val true k.isLt, wait := s.wait.press k } := by
    rw [step_next s _ rest hnext, State.handle, State.onKeyDown, hh]; rfl
  exact ⟨_, hstep, fun j => getElem_set_key s.keys k j true, fun hw => congrArg (Wait.press · k) hw,
    fun hw => Wait.press_of_not_awaiting hw k, rfl, fun _ => rfl⟩

/-- The register of a wait is the low nibble of the byte at `PC` (spec/43_input.md R171). -/
theorem State.eq_waitingReg_iff (s : State) (r : Reg) :
    r = s.waitingReg ↔ r.val = (s.readByte s.pc.toNat).toNat % 16 := by
  rw [Fin.ext_iff, State.waitingReg, Fin.val_ofNat, slice]; omega

/-- Settles O33: the keys are set in both cases, and a wait for this release is completed. -/
theorem keyUpEffect : Obligations.KeyUpEffect := by
  intro s k rest hnext hh
  have hkeys := fun j => getElem_set_key s.keys k j false
  have hstep : step s = .next (if s.wait = .awaitingRelease k
      then ({ s with inbox := rest, keys := s.keys.set k.val false k.isLt } : State).completeWait k
      else { s with inbox := rest, keys := s.keys.set k.val false k.isLt }) := by
    rw [step_next s _ rest hnext, State.handle, State.onKeyUp, hh]; rfl
  by_cases hw : s.wait = .awaitingRelease k
  · rw [if_pos hw] at hstep
    refine ⟨_, hstep, hkeys, fun _ => ⟨rfl, rfl, fun r => ?_⟩, fun hne => absurd hw hne, rfl, fun _ => rfl⟩
    refine (congrArg BitVec.toNat (State.getV_setV _ _ r _)).trans ?_
    rw [apply_ite BitVec.toNat, BitVec.toNat_ofNat, Nat.mod_eq_of_lt (by omega)]
    exact if_congr (State.eq_waitingReg_iff _ r) rfl rfl
  · rw [if_neg hw] at hstep
    exact ⟨_, hstep, hkeys, fun h => absurd h hw, fun _ => ⟨rfl, rfl, rfl⟩, rfl, fun _ => rfl⟩

/-! ### Timers, display, dump -/

/-- The sound timer that comes to 0 is heard, and nothing else is (spec/44_timers.md R195, R197). -/
theorem State.decayTimers_audio {s : State} (h : s.st.wf s.now) (now : Nat) :
    (s.decayTimers now).audio =
      s.audio ++ (if s.st.value ≠ 0 ∧ (s.decayTimers now).st.value = 0 then [Signal.toneOff] else []) := by
  have hended : (s.st.decay s.cfg.timerPeriod now).2 = true ↔ s.st.value ≠ 0 ∧ (s.decayTimers now).st.value = 0 :=
    Timer.decay_ended_iff h _ _
  by_cases hend : (s.st.decay s.cfg.timerPeriod now).2 = true
  · rw [if_pos (hended.1 hend)]; exact if_pos hend
  · rw [if_neg (mt hended.2 hend), List.append_nil]; exact if_neg hend

/-- Settles O38. -/
theorem timerTickEffect : Obligations.TimerTickEffect := by
  intro s now rest hnext
  rw [step_next s _ rest hnext, State.handle, State.onTimerTick]
  refine ⟨fun hh => ?_, fun hh hle hcfg hdt hst => ?_⟩
  · rw [if_pos (by simpa [Option.isSome_iff_ne_none] using hh)]
  · rw [if_neg (by simp [hh]), if_neg (Nat.not_lt.2 hle)]
    exact ⟨_, rfl, Timer.decay_tickedTo hdt _ _, Timer.decay_tickedTo hst _ _, State.decayTimers_audio hst now, rfl,
      fun _ => rfl⟩

/-- Settles O45. -/
theorem presentEffect : Obligations.PresentEffect := by
  intro s rest hnext
  refine ⟨_, step_next s _ rest hnext, rfl, rfl, fun r hr => ?_, List.length_replicate, rfl, rfl, rfl, fun _ => rfl⟩
  have hoff := getD_replicate_false s.display.dirtyRows.length r
  exact Bool.false_ne_true (hoff.symm.trans hr)

/-- Settles O46: the dump is `debugDump`. -/
theorem snapshotEffect : Obligations.SnapshotEffect := by
  intro s rest hnext
  refine ⟨_, s.debugDump, step_next s _ rest hnext, rfl, rfl, rfl, rfl, rfl, rfl, rfl, rfl, rfl, ?_, fun a ha => ?_⟩
  · rw [State.debugDump, List.length_map, List.length_range]; rfl
  · rw [State.debugDump, List.getD_eq_getElem _ _ (by simpa [Config.memSize] using ha), List.getElem_map,
      List.getElem_range]

/-! ### Reset -/

/-- A byte after a load: the byte loaded there, else as before (spec/70_reset_and_hazards.md R270). -/
theorem Memory.read_load (font : List Byte) (bytes : List Byte) (m : List Host.Cell) (base a : Nat) :
    Memory.read font (Memory.load font m base bytes) a =
      if base ≤ a ∧ a < base + bytes.length then bytes.getD (a - base) 0 else Memory.read font m a := by
  induction bytes generalizing m base with
  | nil => rw [if_neg (by rw [List.length_nil]; omega)]; rfl
  | cons b rest ih =>
    rw [Memory.load, ih, Memory.read_write, List.length_cons]
    obtain hlt | rfl | hgt := Nat.lt_trichotomy a base
    · rw [if_neg (by omega), if_neg (by omega), if_neg (by omega)]
    · rw [if_neg (by omega), if_pos rfl, if_pos (by omega), Nat.sub_self, List.getD_cons_zero]
    · rw [if_neg (by omega : a ≠ base), show a - base = (a - (base + 1)) + 1 by omega, List.getD_cons_succ]
      exact if_congr (by omega) rfl rfl

/-- Settles O47. -/
theorem resetEventEffect : Obligations.ResetEventEffect := by
  intro s rom rest hi
  rw [step_reset s rom rest hi, State.onReset]
  refine ⟨fun hrom => ?_, fun hrom => if_pos hrom⟩
  rw [if_neg (show ¬rom.length > Config.maxRom from Nat.not_lt.2 hrom)]
  exact ⟨_, rfl, rfl, fun a => Memory.read_load _ _ _ _ _⟩

/-- Settles O48. -/
theorem resetStateValues : Obligations.ResetStateValues := by
  have hcell : ∀ c r, State.reset.pixel c r = false := fun c r => getD_replicate_false _ _
  refine ⟨rfl, rfl, fun r => ?_, rfl, rfl, rfl, rfl, rfl, rfl, List.length_replicate, hcell, rfl, rfl, rfl, fun k => ?_,
    rfl, rfl, rfl, rfl, fun a ha => if_neg (Nat.not_lt.2 ha)⟩
  · exact Vector.getElem_replicate _
  · exact Vector.getElem_replicate _

/-! ### The end of the run, and the halted core -/

theorem Event.isReset_eq_false {e : Event} (h : ∀ rom, e ≠ .reset rom) : e.isReset = false := by
  cases e with
  | reset rom => exact absurd rfl (h rom)
  | _ => rfl

/-- After the end of the run nothing but a `Reset` is delivered (log 9). -/
theorem step_ended {s : State} (he : s.ended = true) (hreset : ∀ rom rest, s.inbox ≠ .reset rom :: rest) :
    step s = .fault .runEnded := by
  cases hi : s.inbox with
  | nil => simp [step, State.nextEvent, hi, he]
  | cons e rest =>
    have hne : e.isReset = false := Event.isReset_eq_false fun rom hrom => hreset rom rest (hrom ▸ hi)
    rw [step_queued s e rest hi]
    simp [State.deliver, he, hne]

/-- Settles O49. -/
theorem quitEndsTheRun : Obligations.QuitEndsTheRun :=
  ⟨fun s rest hnext => step_next s _ rest hnext, fun _ he hreset => step_ended he hreset⟩

end Sys2Proof.Machine

/-!
PROOFS. The whole machine: what an instruction may write (spec/10_state.md R20 to R30, spec/20_memory.md R50), what a
halted core keeps (R30), that the dirty tracking never under-reports (R36), and which steps have a next state
(spec/93_implementation_defined.md section 1).
-/

namespace Sys2Proof.Machine

/-! ### What an instruction may write -/

/-- What the instruction `ins` may change from `s` to `t`: each kind has its fields, and nothing else differs. -/
inductive ExecFrame (s t : State) : Instr → Prop
  /-- Every instruction may change no more than its destinations, `PC` and the counter of free values. -/
  | registers {ins : Instr} (hv : ins.destinations = [] → t.v = s.v)
      (h : t = { s with v := t.v, pc := t.pc, draws := t.draws }) : ExecFrame s t ins
  | clear (h : t = { s with display := t.display, pc := t.pc }) : ExecFrame s t .cls
  | draw {x y : Reg} {n : Nat}
      (h : t = { s with v := t.v, display := t.display, pc := t.pc, halted := t.halted }) : ExecFrame s t (.drw x y n)
  | call {nnn : Addr12} (h : t = { s with stack := t.stack, pc := t.pc, halted := t.halted }) : ExecFrame s t (.call nnn)
  | ret (h : t = { s with stack := t.stack, pc := t.pc, halted := t.halted }) : ExecFrame s t .ret
  | loadIndex {nnn : Addr12} (h : t = { s with i := t.i, pc := t.pc }) : ExecFrame s t (.ldI nnn)
  | addIndex {x : Reg} (h : t = { s with i := t.i, pc := t.pc }) : ExecFrame s t (.addI x)
  | glyph {x : Reg} (h : t = { s with i := t.i, pc := t.pc, halted := t.halted }) : ExecFrame s t (.ldF x)
  | digits {x : Reg} (h : t = { s with mem := t.mem, pc := t.pc, halted := t.halted }) : ExecFrame s t (.ldB x)
  | store {x : Reg}
      (h : t = { s with mem := t.mem, i := t.i, pc := t.pc, halted := t.halted }) : ExecFrame s t (.storeRegs x)
  | load {x : Reg} (h : t = { s with v := t.v, i := t.i, pc := t.pc, halted := t.halted }) : ExecFrame s t (.loadRegs x)
  | delay {x : Reg} (hnow : s.now ≤ t.now)
      (h : t = { s with dt := t.dt, pc := t.pc, now := t.now, draws := t.draws }) : ExecFrame s t (.ldDtVx x)
  | sound {x : Reg} (hnow : s.now ≤ t.now)
      (h : t = { s with st := t.st, audio := t.audio, pc := t.pc, now := t.now, draws := t.draws }) :
      ExecFrame s t (.ldStVx x)
  | wait {x : Reg} (h : t = { s with wait := t.wait }) : ExecFrame s t (.ldVxK x)

/-- Every instruction stays in its frame. -/
theorem exec_frame {ins : Instr} {s t : State} (h : exec ins s = .next t) : ExecFrame s t ins := by
  cases ins
  case cls => cases h; exact .clear rfl
  case ret =>
    simp only [exec, execRet] at h
    split at h <;> cases h <;> exact .ret rfl
  case call nnn => cases h; split <;> exact .call rfl
  case ldI nnn => cases h; exact .loadIndex rfl
  case addI x => cases h; exact .addIndex rfl
  case ldF x =>
    simp only [exec, execLdF] at h
    split at h <;> cases h <;> exact .glyph rfl
  case ldB x =>
    obtain ⟨u, hrun, hu⟩ | ⟨u, f, hrun, hu⟩ :=
      s.storeBytes_frame [hundreds (s.getV x), tens (s.getV x), units (s.getV x)] 0 <;>
      rw [exec, execLdB, hrun] at h <;> cases h <;> rw [hu] <;> exact .digits rfl
  case storeRegs x =>
    obtain ⟨u, hrun, hu⟩ | ⟨u, f, hrun, hu⟩ := s.storeBlock_frame (x.val + 1) 0 <;>
      rw [exec, execStoreRegs, hrun] at h <;> cases h <;> rw [hu] <;> exact .store rfl
  case loadRegs x =>
    obtain ⟨u, hrun, hu, -⟩ | ⟨u, f, hrun, hu, -⟩ := s.loadBlock_frame (x.val + 1) 0 (by omega) <;>
      rw [exec, execLoadRegs, hrun] at h <;> cases h <;> rw [hu] <;> exact .load rfl
  case drw x y n =>
    obtain ⟨u, any, hrun, hu⟩ | ⟨u, f, hrun, hu⟩ := State.drawRows_frame (s.anchorX x) (s.anchorY y) n s 0 false <;>
      rw [exec, execDrw, hrun] at h <;> cases h <;> rw [hu] <;> exact .draw rfl
  case ldDtVx x => cases h; exact .delay s.now_le_clockReading rfl
  case ldStVx x => cases h; exact .sound s.now_le_clockReading rfl
  case ldVxK x => cases h; exact .wait rfl
  case jp | jpV0 | seImm | sneImm | seReg | sneReg | skp | sknp => cases h; exact .registers (fun _ => rfl) rfl
  all_goals cases h; exact .registers nofun rfl

/-- No instruction changes the configuration or sets the clock back. -/
theorem ExecFrame.cfg_now {s t : State} {ins : Instr} (h : ExecFrame s t ins) : t.cfg = s.cfg ∧ s.now ≤ t.now := by
  cases h
  case delay hnow h | sound hnow h => exact ⟨by rw [h], hnow⟩
  all_goals rename t = _ => h; rw [h]; exact ⟨rfl, le_rfl⟩

/-- Settles O54: each clause is read off the frames. -/
theorem instructionsWriteOnlyTheirState : Obligations.InstructionsWriteOnlyTheirState := by
  intro ins s t h
  cases exec_frame h <;> rename t = _ => hframe <;> rw [hframe] <;> simp [State.readByte]

/-! ### Registers and flags -/

/-- The general registers are kept by an instruction without a destination, unless it is a `DRW`. -/
theorem ExecFrame.v_kept {s t : State} {ins : Instr} (h : ExecFrame s t ins) (hdest : ins.destinations = [])
    (hdrw : ∀ x y n, ins ≠ .drw x y n) : t.v = s.v := by
  cases h
  case registers h hv => exact hv hdest
  case draw h => exact absurd rfl (hdrw _ _ _)
  case load x h =>
    have hmem : (0 : Reg) ∈ (Instr.loadRegs x).destinations := by simp [Instr.destinations]
    rw [hdest] at hmem; cases hmem
  all_goals rename t = _ => h; rw [h]

/-- Only destinations and a flag are written, and a flag is 0 or 1 unless a fault left every register
(spec/10_state.md R20, R21). -/
def WritesRegisters (ins : Instr) (s t : State) : Prop :=
  (∀ r, r ∉ ins.destinations → (r = vf → ins.writesFlag s.cfg = false) → t.getV r = s.getV r) ∧
    (ins.writesFlag s.cfg = true → t.getV vf = 0 ∨ t.getV vf = 1 ∨ t.halted ≠ none ∧ t.v = s.v)

section
variable {ins : Instr} {s t : State}

theorem State.getV_eq_of_v (hv : t.v = s.v) (r : Reg) : t.getV r = s.getV r := by
  rw [State.getV, State.getV, hv]

theorem WritesRegisters.of_kept (hv : t.v = s.v) (hflag : ins.writesFlag s.cfg = false) : WritesRegisters ins s t :=
  ⟨fun r _ _ => State.getV_eq_of_v hv r, fun h => (Bool.false_ne_true (hflag.symm.trans h)).elim⟩

theorem WritesRegisters.of_destination {x : Reg} {b : Byte} (hdest : ins.destinations = [x])
    (hflag : ins.writesFlag s.cfg = false) (hv : ∀ r, t.getV r = if r = x then b else s.getV r) :
    WritesRegisters ins s t := by
  refine ⟨fun r hr _ => ?_, fun h => (Bool.false_ne_true (hflag.symm.trans h)).elim⟩
  rw [hv, if_neg (by simpa [hdest] using hr)]

theorem WritesRegisters.of_flag {x : Reg} {data : Byte} {c : Bool} (hdest : ins.destinations = [x])
    (hflag : ins.writesFlag s.cfg = true) (ht : t = (s.setDataThenFlag x data (flagByte c)).advance) :
    WritesRegisters ins s t := by
  obtain ⟨hvf, -, hother, -⟩ := State.setDataThenFlag_advance_spec ht
  refine ⟨fun r hr hkeep => hother r (by simpa [hdest] using hr) fun hrvf => ?_, fun _ => ?_⟩
  · exact Bool.false_ne_true ((hkeep hrvf).symm.trans hflag)
  · rw [hvf]; exact (flagByte_zero_or_one c).imp_right .inl

theorem WritesRegisters.of_logic {x : Reg} {data : Byte} (hdest : ins.destinations = [x])
    (hflag : ins.writesFlag s.cfg = s.cfg.quirkLogicVf0) (ht : t = (s.setLogic x data).advance) :
    WritesRegisters ins s t := by
  obtain ⟨hv, -⟩ := State.setLogic_advance_spec ht
  refine ⟨fun r hr hkeep => ?_, fun hquirk => ?_⟩
  · rw [hv, if_neg, if_neg (by simpa [hdest] using hr)]
    rintro ⟨hrvf, hquirk⟩
    exact Bool.false_ne_true ((hkeep hrvf).symm.trans (hflag.trans hquirk))
  · rw [hv, if_pos ⟨rfl, hflag.symm.trans hquirk⟩]; exact .inl rfl

end

theorem loadRegs_writes (x : Reg) {s t : State} (h : exec (.loadRegs x) s = .next t) :
    WritesRegisters (.loadRegs x) s t := by
  have hout : ∀ r : Reg, r ∉ (Instr.loadRegs x).destinations → ¬(0 ≤ r.val ∧ r.val < 0 + (x.val + 1)) := by
    intro r hr
    simp only [Instr.destinations, List.mem_filter, List.mem_finRange, true_and, decide_eq_true_eq, Fin.le_def] at hr
    omega
  refine ⟨fun r hr _ => ?_, nofun⟩
  obtain ⟨u, hrun, -, hv⟩ | ⟨u, f, hrun, -, hv⟩ := s.loadBlock_frame (x.val + 1) 0 (by omega) <;>
    rw [exec, execLoadRegs, hrun] at h <;> cases h <;> exact hv r (hout r hr)

theorem drw_writes (x y : Reg) (n : Nat) {s t : State} (h : exec (.drw x y n) s = .next t) :
    WritesRegisters (.drw x y n) s t := by
  obtain ⟨u, any, hrun, hu⟩ | ⟨u, f, hrun, hu⟩ := State.drawRows_frame (s.anchorX x) (s.anchorY y) n s 0 false <;>
    rw [exec, execDrw, hrun] at h <;> cases h
  · have huv : u.v = s.v := by rw [hu]
    obtain ⟨hv, -⟩ := State.setV_advance_spec (s := u.recordRect (s.anchorX x) (s.anchorY y) n) (x := vf)
      (b := flagByte any) rfl
    refine ⟨fun r _ hkeep => ?_, fun _ => ?_⟩
    · rw [hv, if_neg fun hrvf => Bool.false_ne_true (hkeep hrvf).symm, State.getV_recordRect, State.getV_eq_of_v huv]
    · rw [hv, if_pos rfl]; exact (flagByte_zero_or_one any).imp_right .inl
  · have huv : t.v = s.v := by rw [hu]
    exact ⟨fun r _ _ => State.getV_eq_of_v huv r, fun _ => .inr (.inr ⟨by rw [hu]; exact nofun, huv⟩)⟩

/-- Settles O55. -/
theorem registerAndFlagWriters : Obligations.RegisterAndFlagWriters := by
  intro ins s t h
  show WritesRegisters ins s t
  cases ins
  case ldImm | addImm | ldReg | ldVxDt => cases h; exact .of_destination rfl rfl (State.setV_advance_spec rfl).1
  case rnd => cases h; exact .of_destination rfl rfl (State.setV_advance_spec (s := s.takeDraw) rfl).1
  case or | and | xor => cases h; exact .of_logic rfl rfl rfl
  case addReg | sub | shr | subn | shl => cases h; exact .of_flag rfl rfl rfl
  case loadRegs x => exact loadRegs_writes x h
  case drw x y n => exact drw_writes x y n h
  all_goals exact .of_kept ((exec_frame h).v_kept rfl nofun) rfl

/-! ### Steps that have a next state, and those that stop -/

/-- The instruction cycle always ends in a next state. -/
theorem State.runInstruction_next (s : State) : ∃ t, s.runInstruction = .next t := by
  obtain ⟨-, hrun⟩ | ⟨-, -, hrun⟩ | ⟨-, ins, -, hrun⟩ := s.runInstruction_cases
  · exact ⟨_, hrun⟩
  · exact ⟨_, hrun⟩
  · rw [hrun]; exact exec_next ins s

/-- An event with a ROM that fits and, where it is looked at, a clock that does not go back has a next state. -/
theorem State.handle_next {s : State} {e : Event} (hrom : ∀ rom, e = .reset rom → rom.length ≤ 3584)
    (hclock : s.halted = none → ∀ now, e = .timerTick now ∨ (∃ rnd, e = .step now rnd) → s.now ≤ now) :
    ∃ t, s.handle e = .next t := by
  cases e
  case reset rom => exact ⟨_, if_neg (Nat.not_lt.2 (hrom rom rfl))⟩
  case step now rnd =>
    rw [State.handle, State.onStep]
    split
    · exact ⟨_, rfl⟩
    · rename_i hh
      rw [if_neg (Nat.not_lt.2 (hclock (by simpa using hh) now (.inr ⟨rnd, rfl⟩)))]
      exact State.runInstruction_next _
  case timerTick now =>
    rw [State.handle, State.onTimerTick]
    split
    · exact ⟨_, rfl⟩
    · rename_i hh
      exact ⟨_, if_neg (Nat.not_lt.2 (hclock (by simpa using hh) now (.inl rfl)))⟩
  case keyDown k => rw [State.handle, State.onKeyDown]; split <;> exact ⟨_, rfl⟩
  case keyUp k => rw [State.handle, State.onKeyUp]; split <;> exact ⟨_, rfl⟩
  case present | snapshot | quit => exact ⟨_, rfl⟩

/-- The run is over and no `Reset` is next (log 9). -/
def State.runOver (s : State) : Prop := s.ended = true ∧ ∀ rom rest, s.inbox ≠ .reset rom :: rest

/-- The next event is a `Reset` with a ROM that does not fit (log 10). -/
def State.romNext (s : State) : Prop := ∃ rom rest, s.inbox = .reset rom :: rest ∧ 3584 < rom.length

/-- The next event carries a clock that goes back, and is looked at (log 10). -/
def State.clockNext (s : State) : Prop :=
  s.ended = false ∧ s.halted = none ∧ ∃ now rest, now < s.now ∧
    (s.inbox = .timerTick now :: rest ∨ ∃ rnd, s.inbox = .step now rnd :: rest)

theorem step_runOver {s : State} (h : s.runOver) : step s = .fault .runEnded := step_ended h.1 h.2

theorem step_romNext {s : State} (h : s.romNext) : step s = .refused .romTooLong := by
  obtain ⟨rom, rest, hi, hlong⟩ := h
  rw [step_reset s rom rest hi]
  exact if_pos hlong

theorem step_clockNext {s : State} (h : s.clockNext) : step s = .refused .clockBackwards := by
  obtain ⟨he, hh, now, rest, hlt, hi | ⟨rnd, hi⟩⟩ := h <;> rw [step_next s _ rest ⟨hi, he⟩]
  · rw [State.handle, State.onTimerTick, hh]; exact if_pos hlt
  · rw [State.handle, State.onStep, hh]; exact if_pos hlt

/-- While the run is not over the oldest queued event is handled. -/
theorem step_handles {s : State} {e : Event} {rest : List Event} (hover : ¬s.runOver) (hi : s.inbox = e :: rest) :
    step s = ({ s with inbox := rest } : State).handle e := by
  by_cases he : s.ended = false
  · exact step_next s e rest ⟨hi, he⟩
  · obtain ⟨rom, rfl⟩ : ∃ rom, e = .reset rom := by
      by_contra hne
      refine hover ⟨by simpa using he, fun rom rest' h => hne ⟨rom, ?_⟩⟩
      exact (List.cons.inj (hi.symm.trans h)).1
    exact step_reset s rom rest hi

/-- Outside the three cases a step has a next state. -/
theorem step_next_of_legal {s : State} (hover : ¬s.runOver) (hrom : ¬s.romNext) (hclock : ¬s.clockNext) :
    ∃ t, step s = .next t := by
  cases hi : s.inbox with
  | nil =>
    have he : s.ended = false := by
      by_contra he
      exact hover ⟨by simpa using he, fun rom rest h => by rw [hi] at h; cases h⟩
    rw [step_free s hi he, State.onFreeStep]
    split
    · exact ⟨_, rfl⟩
    · exact State.runInstruction_next _
  | cons e rest =>
    rw [step_handles hover hi]
    refine State.handle_next (fun rom he => ?_) fun hh now he => ?_
    · by_contra hlong
      exact hrom ⟨rom, rest, by rw [hi, he], Nat.not_le.1 hlong⟩
    · have hended : s.ended = false := by
        by_contra hne
        refine hover ⟨by simpa using hne, fun rom rest' h => ?_⟩
        obtain rfl : e = .reset rom := (List.cons.inj (hi.symm.trans h)).1
        obtain he | ⟨rnd, he⟩ := he <;> cases he
      by_contra hback
      refine hclock ⟨hended, hh, now, rest, Nat.not_le.1 hback, ?_⟩
      obtain rfl | ⟨rnd, rfl⟩ := he
      · exact .inl hi
      · exact .inr ⟨rnd, hi⟩

/-- The four ways a step ends. -/
theorem step_classified (s : State) :
    (s.runOver ∧ step s = .fault .runEnded) ∨ (s.romNext ∧ step s = .refused .romTooLong) ∨
      (s.clockNext ∧ step s = .refused .clockBackwards) ∨ ∃ t, step s = .next t := by
  by_cases hover : s.runOver
  · exact .inl ⟨hover, step_runOver hover⟩
  by_cases hrom : s.romNext
  · exact .inr (.inl ⟨hrom, step_romNext hrom⟩)
  by_cases hclock : s.clockNext
  · exact .inr (.inr (.inl ⟨hclock, step_clockNext hclock⟩))
  · exact .inr (.inr (.inr (step_next_of_legal hover hrom hclock)))

/-- Settles O58: the ways a step ends differ, so that each stop tells its case. -/
theorem everyLegalEventHasANextState : Obligations.EveryLegalEventHasANextState := by
  intro s
  refine ⟨⟨fun h => ?_, step_runOver⟩, ⟨fun h => ?_, step_romNext⟩, ⟨fun h => ?_, step_clockNext⟩, ?_⟩ <;>
    obtain ⟨hcase, hstep⟩ | ⟨hcase, hstep⟩ | ⟨hcase, hstep⟩ | ⟨t, hstep⟩ := step_classified s
  case refine_1.inl | refine_2.inr.inl | refine_3.inr.inr.inl => exact hcase
  case refine_4.inl => exact .inl hstep
  case refine_4.inr.inl => exact .inr (.inl hstep)
  case refine_4.inr.inr.inl => exact .inr (.inr (.inl hstep))
  case refine_4.inr.inr.inr => exact .inr (.inr (.inr ⟨t, hstep⟩))
  all_goals rw [hstep] at h; cases h

/-! ### What every step keeps -/

theorem State.runInstruction_cfg_now {s t : State} (h : s.runInstruction = .next t) :
    t.cfg = s.cfg ∧ s.now ≤ t.now := by
  obtain ⟨-, hrun⟩ | ⟨-, -, hrun⟩ | ⟨-, ins, -, hrun⟩ := s.runInstruction_cases <;> rw [hrun] at h
  · cases h; exact ⟨rfl, le_rfl⟩
  · cases h; exact ⟨rfl, le_rfl⟩
  · exact (exec_frame h).cfg_now

theorem EventEffect.cfg_now {s t : State} {e : Event} (h : EventEffect s e t) : t.cfg = s.cfg ∧ s.now ≤ t.now := by
  cases h with
  | tick hh hle => exact ⟨rfl, hle⟩
  | _ => exact ⟨rfl, le_rfl⟩

/-- Settles O59. -/
theorem configurationIsFixedAndClockMonotone : Obligations.ConfigurationIsFixedAndClockMonotone := by
  intro s t h
  obtain ⟨-, rfl⟩ | ⟨s0, hs0, hrun⟩ | ⟨e, rest, -, heffect⟩ := step_effect h
  · exact ⟨rfl, le_rfl⟩
  · obtain ⟨hframe, hle⟩ := State.takesStep_frame hs0
    obtain ⟨hcfg, hnow⟩ := State.runInstruction_cfg_now hrun
    exact ⟨hcfg.trans (by rw [hframe]), hle.trans hnow⟩
  · exact heffect.cfg_now

/-- A halted core does not react to any event but a `Reset` and those of the host (spec/10_state.md R30). -/
theorem EventEffect.of_halted {s t : State} {e : Event} (h : EventEffect s e t) (hh : s.halted ≠ none)
    (hreset : ∀ rom, e ≠ .reset rom) :
    t = { s with replies := t.replies, ended := t.ended, display := { t.display with fb := s.display.fb } } ∧
      (e ≠ .present → t.display = s.display) := by
  cases h with
  | reset hrom => exact absurd rfl (hreset _)
  | tick hrun | keyDown hrun | keyUp hrun | release hrun => exact absurd hrun hh
  | present => exact ⟨rfl, fun hne => absurd rfl hne⟩
  | halted | snapshot | quit => exact ⟨rfl, fun _ => rfl⟩

/-- Settles O51. -/
theorem haltedCoreKeepsItsState : Obligations.HaltedCoreKeepsItsState := by
  intro s t hh hreset h
  obtain ⟨-, rfl⟩ | ⟨s0, ⟨-, hrun, -⟩, -⟩ | ⟨e, rest, hi, heffect⟩ := step_effect h
  · exact ⟨rfl, fun _ => rfl⟩
  · exact absurd hrun hh
  · obtain ⟨hframe, hdisplay⟩ := heffect.of_halted hh fun rom he => hreset rom rest (he ▸ hi)
    exact ⟨by rw [hi]; exact hframe, fun hpresent => hdisplay fun he => hpresent rest (he ▸ hi)⟩

/-! ### The dirty tracking -/

/-- A cell on the screen that changed is marked and, without a fault, covered, and neither is lost
(spec/10_state.md R36). -/
def State.tracks (s t : State) : Prop :=
  ∀ c r, s.onScreen c r →
    (t.pixel c r ≠ s.pixel c r → t.marked r ∧ (t.halted = none → t.covered c r)) ∧
    (s.marked r → t.marked r) ∧ (s.covered c r → t.covered c r)

theorem State.tracks_of_kept {s t : State} (hcfg : t.cfg = s.cfg) (hd : t.display = s.display) : s.tracks t := by
  intro c r _
  refine ⟨fun hne => absurd ?_ hne, fun hm => ?_, fun hcov => ?_⟩
  · rw [State.pixel, State.pixel, hcfg, hd]
  · rwa [State.marked, hd]
  · rwa [State.covered, hd]

theorem cls_tracks {s t : State} (h : exec .cls s = .next t) : s.tracks t := by
  obtain ⟨t', h', -, -, hmarked, hrects, -⟩ := clearScreenResult s
  obtain rfl : t' = t := by injection h'.symm.trans h
  intro c r hon
  obtain ⟨hc, hr⟩ := hon
  have hcov : t'.covered c r :=
    ⟨_, by rw [hrects]; exact List.mem_singleton_self _, by dsimp only; omega⟩
  exact ⟨fun _ => ⟨hmarked r hr, fun _ => hcov⟩, fun _ => hmarked r hr, fun _ => hcov⟩

/-- A drawn sprite marks the rows of the cells it toggles. -/
theorem State.spriteDrawn.marks {s t : State} {x0 y0 n : Nat} (h : s.spriteDrawn t x0 y0 n) {c r : Nat}
    (hon : s.onScreen c r) :
    (t.pixel c r ≠ s.pixel c r → s.spriteBit x0 y0 n c r = true ∧ t.marked r) ∧ (s.marked r → t.marked r) := by
  obtain ⟨-, -, hcell, hmark⟩ := h
  refine ⟨fun hne => ?_, fun hm => (hmark r).2 (.inl hm)⟩
  have hbit : s.spriteBit x0 y0 n c r = true := by
    by_contra hoff
    rw [hcell c r hon, Bool.eq_false_iff.2 hoff, Bool.xor_false] at hne
    exact hne rfl
  exact ⟨hbit, (hmark r).2 (.inr ⟨c, hon, hbit⟩)⟩

theorem drw_tracks {x y : Reg} {n : Nat} {s t : State} (hcfg : s.cfg.wf) (hwf : s.display.wf s.cfg)
    (h : exec (.drw x y n) s = .next t) : s.tracks t := by
  by_cases hfit : n = 0 ∨ s.i.toNat + n ≤ 0x1000
  · obtain ⟨t', h', hdrawn, -, -, -, hrects, -⟩ := drawSpriteResult x y n s _ _ hcfg hwf hfit rfl rfl
    obtain rfl : t' = t := by injection h'.symm.trans h
    intro c r hon
    obtain ⟨hchanged, hkept⟩ := hdrawn.marks hon
    refine ⟨fun hne => ⟨(hchanged hne).2, fun _ => ?_⟩, hkept, fun ⟨q, hq, hin⟩ => ⟨q, ?_, hin⟩⟩
    · have hbox := (Bool.and_eq_true_iff.1 (hchanged hne).1).1
      rw [decide_eq_true_eq] at hbox
      have hn : n ≠ 0 := by omega
      rw [if_neg hn] at hrects
      refine ⟨_, by rw [hrects]; exact List.mem_append_right _ (List.mem_singleton_self _), ?_⟩
      obtain ⟨hc, hr⟩ := hon
      dsimp only
      omega
    · rw [hrects]; exact List.mem_append_left _ hq
  · obtain ⟨t', h', hdrawn, hrects, hframe, -⟩ :=
      drawSpriteFaultsPartWay x y n s _ _ hcfg hwf (by omega) (by omega) rfl rfl
    obtain rfl : t' = t := by injection h'.symm.trans h
    intro c r hon
    obtain ⟨hchanged, hkept⟩ := hdrawn.marks hon
    refine ⟨fun hne => ⟨(hchanged hne).2, fun hrun => ?_⟩, hkept, fun ⟨q, hq, hin⟩ => ⟨q, hrects ▸ hq, hin⟩⟩
    rw [hframe] at hrun; cases hrun

/-- Every instruction tracks the cells it changes: only `CLS` and `DRW` change any. -/
theorem exec_tracks {ins : Instr} {s t : State} (hcfg : s.cfg.wf) (hwf : s.display.wf s.cfg)
    (h : exec ins s = .next t) : s.tracks t := by
  obtain ⟨⟨htcfg, -⟩, -, hdisplay, -⟩ := instructionsWriteOnlyTheirState ins s t h
  by_cases hd : t.display = s.display
  · exact State.tracks_of_kept htcfg hd
  · obtain rfl | ⟨x, y, n, rfl⟩ := hdisplay hd
    · exact cls_tracks h
    · exact drw_tracks hcfg hwf h

theorem State.runInstruction_tracks {s t : State} (hcfg : s.cfg.wf) (hwf : s.display.wf s.cfg)
    (h : s.runInstruction = .next t) : s.tracks t := by
  obtain ⟨-, hrun⟩ | ⟨-, -, hrun⟩ | ⟨-, ins, -, hrun⟩ := s.runInstruction_cases <;> rw [hrun] at h
  · cases h; exact State.tracks_of_kept rfl rfl
  · cases h; exact State.tracks_of_kept rfl rfl
  · exact exec_tracks hcfg hwf h

theorem EventEffect.tracks {s t : State} {e : Event} (h : EventEffect s e t) (hpresent : e ≠ .present)
    (hreset : ∀ rom, e ≠ .reset rom) : s.tracks t := by
  cases h with
  | reset hrom => exact absurd rfl (hreset _)
  | present => exact absurd rfl hpresent
  | _ => exact State.tracks_of_kept rfl rfl

/-- Settles O57. -/
theorem dirtyTrackingNeverUnderReports : Obligations.DirtyTrackingNeverUnderReports := by
  intro s t hcfg hwf hpresent hreset h
  show s.tracks t
  obtain ⟨-, rfl⟩ | ⟨s0, hs0, hrun⟩ | ⟨e, rest, hi, heffect⟩ := step_effect h
  · exact State.tracks_of_kept rfl rfl
  · obtain ⟨hframe, -⟩ := State.takesStep_frame hs0
    have hcfg0 : s0.cfg = s.cfg := by rw [hframe]
    have hd0 : s0.display = s.display := by rw [hframe]
    have htracks : s0.tracks t := State.runInstruction_tracks (hcfg0 ▸ hcfg) (hcfg0 ▸ hd0 ▸ hwf) hrun
    rw [hframe] at htracks
    exact htracks
  · exact heffect.tracks (fun he => hpresent rest (he ▸ hi)) fun rom he => hreset rom rest (he ▸ hi)

end Sys2Proof.Machine
